-- ==== Sys2Proof/Word.lean ====
section
/-! DEFINITION. The Word of the machine: the 16-bit unsigned unit of storage of memory cells and
registers (spec/00_scope.md R8, R13), and the byte of an image file, which exists only outside the
CORE (spec/20_memory.md R52, R72). -/

namespace Sys2Proof

/-- A Word: "the fixed-width (16-bit) unit of storage for memory cells and registers" (R13). -/
abbrev Word := BitVec 16

/-- A byte of an image file. The CORE has no bytes (R52); only the loader does (R72). -/
abbrev Byte := BitVec 8

/-- The number of a register, 0 to 15 (spec/10_state.md R21). -/
abbrev RegIndex := Fin 16

/-- The operand Word that names a register: its number as a Word (spec/30_encoding.md R84). -/
def RegIndex.toWord (r : RegIndex) : Word := BitVec.ofNat 16 r.val

end Sys2Proof
end

