-- ==== Sys2Proof/Config.lean ====
section
/-! DEFINITION. The parameters of the machine: those the document fixes (spec/00_scope.md R6) and those
it leaves open, with the value the spec takes (R7). No parameter is a free value: the spec gives each
one, and the only one left OPEN, the byte order of an image file, is an argument where it is used. -/

namespace Sys2Proof

/-- `MEM_WORDS` (R6, spec/20_memory.md R51): Memory has 65535 words, at addresses 0 to 65534. -/
def Config.memWords : Nat := 65535

/-- The last valid address, `MEM_WORDS - 1` (R51). -/
def Config.lastAddress : Nat := 65534

/-- `SP_INDEX` (R6): the stack pointer is register 14. -/
def Config.spIndex : RegIndex := 14

/-- `PC_INDEX` (R6): the program counter is register 15. -/
def Config.pcIndex : RegIndex := 15

/-- `INSTR_WORDS` (R6): an instruction is four words. -/
def Config.instrWords : Nat := 4

/-- `PC_STEP` (R6): what the engine adds to the PC after every executed instruction. -/
def Config.pcStep : Nat := 4

/-- `SP_RESET` (R6). -/
def Config.spReset : Word := 65535

/-- `PC_RESET` (R6). -/
def Config.pcReset : Word := 0

/-- `MEM_RESET` (R6): every memory word before the image is loaded. It is also what an address that the
memory's list does not hold reads as, which is one definition because the spec gives the reset contents. -/
def Config.memReset : Word := 0

/-- `GPR_RESET` (R7): the start value of registers 0 to 13. The spec's decision D8, UNVERIFIED of the
original and unsafe (log 2). -/
def Config.gprReset : Word := 0

/-- `IMAGE_BASE` (R6): the address the image is loaded at. -/
def Config.imageBase : Nat := 0

/-- `NUM_OPCODES` (R6): opcodes 1 to 17 have handlers. -/
def Config.numOpcodes : Nat := 17

/-- `IMAGE_BYTE_ORDER` (R7, R72), the parameter the spec leaves OPEN. It belongs to the loader; no rule of
the CORE depends on it. -/
inductive Config.ByteOrder where
  | littleEndian
  | bigEndian
deriving DecidableEq, Repr

/-- The spec's default for the open parameter (R72). UNVERIFIED, safe (log 8). -/
def Config.defaultByteOrder : Config.ByteOrder := .littleEndian

@[simp] theorem Config.memWords_eq : Config.memWords = 65535 := rfl
@[simp] theorem Config.lastAddress_eq : Config.lastAddress = 65534 := rfl
@[simp] theorem Config.spIndex_eq : Config.spIndex = 14 := rfl
@[simp] theorem Config.pcIndex_eq : Config.pcIndex = 15 := rfl
@[simp] theorem Config.instrWords_eq : Config.instrWords = 4 := rfl
@[simp] theorem Config.pcStep_eq : Config.pcStep = 4 := rfl
@[simp] theorem Config.spReset_eq : Config.spReset = 65535#16 := rfl
@[simp] theorem Config.pcReset_eq : Config.pcReset = 0#16 := rfl
@[simp] theorem Config.memReset_eq : Config.memReset = 0#16 := rfl
@[simp] theorem Config.gprReset_eq : Config.gprReset = 0#16 := rfl
@[simp] theorem Config.imageBase_eq : Config.imageBase = 0 := rfl
@[simp] theorem Config.numOpcodes_eq : Config.numOpcodes = 17 := rfl

end Sys2Proof
end

