-- ==== Sys2Proof/Syntax.lean ====
section
/-! DEFINITION. The instructions: one constructor for each row of spec/opcode_table.json, seventeen with a
handler and the row `(unmapped)` (spec/30_encoding.md R88, R90).

Every constructor carries the three operand words `a`, `b`, `c` whole. A register operand is a whole Word
because an index above 15 is an instruction that executes and faults (R84), and an unused operand word is
carried because the handler receives it and ignores it (R87). So each four words mean exactly one
instruction and no bit is dropped. -/

namespace Sys2Proof

/-- The four words of an instruction, lowest address first (R80). -/
structure InstrWords where
  /-- w0, the opcode, at `pc`. -/
  op : Word
  /-- w1, operand 1, at `pc + 1`. -/
  a : Word
  /-- w2, operand 2, at `pc + 2`. -/
  b : Word
  /-- w3, operand 3, at `pc + 3`. -/
  c : Word
deriving DecidableEq, Repr

/-- One constructor per row of the opcode table (R88), in the table's order. -/
inductive Instr where
  /-- ADD, 0x0001 (R141). -/
  | add (a b c : Word)
  /-- MUL, 0x0002 (R142). -/
  | mul (a b c : Word)
  /-- SUB, 0x0003 (R143). -/
  | sub (a b c : Word)
  /-- DIV, 0x0004 (R144). -/
  | div (a b c : Word)
  /-- COP, 0x0005 (R161). -/
  | cop (a b c : Word)
  /-- AFC, 0x0006 (R162). -/
  | afc (a b c : Word)
  /-- LOAD, 0x0007 (R163). -/
  | load (a b c : Word)
  /-- STR, 0x0008 (R164). -/
  | str (a b c : Word)
  /-- EQU, 0x0009 (R181). -/
  | equ (a b c : Word)
  /-- INF, 0x000A (R182). -/
  | inf (a b c : Word)
  /-- INFE, 0x000B (R183). -/
  | infe (a b c : Word)
  /-- SUP, 0x000C (R184). -/
  | sup (a b c : Word)
  /-- SUPE, 0x000D (R185). -/
  | supe (a b c : Word)
  /-- JMP, 0x000E (R201). -/
  | jmp (a b c : Word)
  /-- JMPC, 0x000F (R202). -/
  | jmpc (a b c : Word)
  /-- POP, 0x0010 (R221). -/
  | pop (a b c : Word)
  /-- PUSH, 0x0011 (R222). -/
  | push (a b c : Word)
  /-- The row `(unmapped)`: an opcode word `op` without a handler (R90, R114). -/
  | unmapped (op a b c : Word)
deriving DecidableEq, Repr

/-- Whether the instruction is the halt of an opcode without a handler. -/
def Instr.isUnmapped : Instr → Bool
  | .unmapped _ _ _ _ => true
  | .add _ _ _ | .mul _ _ _ | .sub _ _ _ | .div _ _ _ | .cop _ _ _ | .afc _ _ _ | .load _ _ _
  | .str _ _ _ | .equ _ _ _ | .inf _ _ _ | .infe _ _ _ | .sup _ _ _ | .supe _ _ _ | .jmp _ _ _
  | .jmpc _ _ _ | .pop _ _ _ | .push _ _ _ => false

end Sys2Proof
end

