-- ==== Sys2Proof/WellFormed.lean ====
section
/-! DEFINITION. Which terms of `Instr` stand for an instruction of the machine. The spec restricts nothing
but the opcode word of an unmapped instruction: operand words may hold any value (spec/30_encoding.md R84,
R87), so an instruction with a register index above 15 is well formed; it executes and faults. -/

namespace Sys2Proof

/-- Whether an opcode word has a handler: "0x0001 to 0x0011", compared on all 16 bits (R88, R89). -/
def hasHandler (op : Word) : Bool := decide (1 ≤ op.toNat ∧ op.toNat ≤ Config.numOpcodes)

/-- The well-formed instructions. The one check: the opcode word of an unmapped instruction has no
handler (R90). -/
def Instr.wellFormed : Instr → Bool
  | .unmapped op _ _ _ => !hasHandler op
  | .add _ _ _ | .mul _ _ _ | .sub _ _ _ | .div _ _ _ | .cop _ _ _ | .afc _ _ _ | .load _ _ _
  | .str _ _ _ | .equ _ _ _ | .inf _ _ _ | .infe _ _ _ | .sup _ _ _ | .supe _ _ _ | .jmp _ _ _
  | .jmpc _ _ _ | .pop _ _ _ | .push _ _ _ => true

end Sys2Proof
end

