-- ==== Sys2Proof/Decode.lean ====
section
/-! DEFINITION. Decoding and encoding (spec/30_encoding.md R80 to R94). Decoding reads the whole opcode
word and passes the three operand words on; every four words are an instruction, since every opcode word
outside 0x0001 to 0x0011 is the halt. The only thing to reject is a list of words too short to hold an
instruction. -/

namespace Sys2Proof

/-- The instruction that four words stand for (R88, R89, R90). -/
def decode (w : InstrWords) : Instr :=
  match w.op.toNat with
  | 1 => .add w.a w.b w.c
  | 2 => .mul w.a w.b w.c
  | 3 => .sub w.a w.b w.c
  | 4 => .div w.a w.b w.c
  | 5 => .cop w.a w.b w.c
  | 6 => .afc w.a w.b w.c
  | 7 => .load w.a w.b w.c
  | 8 => .str w.a w.b w.c
  | 9 => .equ w.a w.b w.c
  | 10 => .inf w.a w.b w.c
  | 11 => .infe w.a w.b w.c
  | 12 => .sup w.a w.b w.c
  | 13 => .supe w.a w.b w.c
  | 14 => .jmp w.a w.b w.c
  | 15 => .jmpc w.a w.b w.c
  | 16 => .pop w.a w.b w.c
  | 17 => .push w.a w.b w.c
  | _ => .unmapped w.op w.a w.b w.c

/-- Why a list of words is not the beginning of an instruction. -/
inductive DecodeReject where
  /-- Fewer than the four words every instruction has (R80). -/
  | truncated (present : Nat)
deriving DecidableEq, Repr

/-- Decoding a list of words: the instruction of the first four and the words after it (R80, R92). -/
def decodeWords : List Word → Except DecodeReject (Instr × List Word)
  | op :: a :: b :: c :: rest => .ok (decode ⟨op, a, b, c⟩, rest)
  | ws => .error (.truncated ws.length)

/-- The words of an instruction, written from the opcode map (R88) and the layout (R80, R81). -/
def encode : Instr → InstrWords
  | .add a b c => ⟨0x0001, a, b, c⟩
  | .mul a b c => ⟨0x0002, a, b, c⟩
  | .sub a b c => ⟨0x0003, a, b, c⟩
  | .div a b c => ⟨0x0004, a, b, c⟩
  | .cop a b c => ⟨0x0005, a, b, c⟩
  | .afc a b c => ⟨0x0006, a, b, c⟩
  | .load a b c => ⟨0x0007, a, b, c⟩
  | .str a b c => ⟨0x0008, a, b, c⟩
  | .equ a b c => ⟨0x0009, a, b, c⟩
  | .inf a b c => ⟨0x000A, a, b, c⟩
  | .infe a b c => ⟨0x000B, a, b, c⟩
  | .sup a b c => ⟨0x000C, a, b, c⟩
  | .supe a b c => ⟨0x000D, a, b, c⟩
  | .jmp a b c => ⟨0x000E, a, b, c⟩
  | .jmpc a b c => ⟨0x000F, a, b, c⟩
  | .pop a b c => ⟨0x0010, a, b, c⟩
  | .push a b c => ⟨0x0011, a, b, c⟩
  | .unmapped op a b c => ⟨op, a, b, c⟩

/-- The four words as they stand in memory, lowest address first (R80). -/
def InstrWords.toList (w : InstrWords) : List Word := [w.op, w.a, w.b, w.c]

/-- The image of a program: its instructions, four words each, one after the other (R102). -/
def encodeProgram (is : List Instr) : List Word := is.flatMap fun i => (encode i).toList

/-- Word `k` of an instruction taken as one number: word `k` stands at bits `16 * k + 15` to `16 * k`, so the
first word, the opcode, at bits 15 to 0. That order is the model's (DESIGN CHOICE, safe, log 18): R81 writes the
64 bits as a string in the opposite order of words, `w0` at its bits 63 to 48, and says that the machine never
forms a 64-bit value. -/
def tableWord (w k : Nat) : Word := BitVec.ofNat 16 (w / 2 ^ (16 * k))

/-- The four words of an instruction whose table row gives `nbits` bits, the bits above them zero; the first word is
bits 15 to 0, not 63 to 48 as in the string of R81 (DESIGN CHOICE, safe, log 18). -/
def tableWords (nbits w : Nat) : InstrWords :=
  let v := w % 2 ^ nbits
  ⟨tableWord v 0, tableWord v 1, tableWord v 2, tableWord v 3⟩

/-- The instruction the decoder reads from an instruction whose bits are `w`, numbered from the least significant
bit of the first word (DESIGN CHOICE, safe, log 18). No instruction is longer than 64 bits (R80): none for a
longer row (DESIGN CHOICE, safe, log 16). -/
def decodeTableWord (nbits w : Nat) : Option Instr :=
  if nbits ≤ 64 then
    match decodeWords (tableWords nbits w).toList with
    | .ok (i, _) => some i
    | .error _ => none
  else none

end Sys2Proof
end

