-- ==== Sys2Proof/Machine/State.lean ====
section
/-! DEFINITION. The state of the machine, plain data, all of spec/10_state.md R20 and nothing else; the
reasons a step can stop; and the state after reset. -/

namespace Sys2Proof.Machine

/-- One memory word at an address. The unit is the 16-bit Word, the smallest and only addressable unit of
this machine (spec/20_memory.md R50, R52); DESIGN CHOICE, safe (log 1). -/
abbrev Cell := Nat × Word

/-- Memory: the words that differ from what an unlisted address reads as, addresses strictly rising
(`Memory.wf`). An unlisted address reads as `Config.memReset`. -/
abbrev Memory := List Cell

/-- The canonical form of a memory: addresses strictly rising, every address one of the machine's
(R51), and no entry equal to what an unlisted address reads as. -/
abbrev Memory.wf (m : Memory) : Prop :=
  m.Pairwise (fun c d => c.1 < d.1) ∧ ∀ c ∈ m, c.1 < Config.memWords ∧ c.2 ≠ Config.memReset

/-- The run states of the engine (R30, spec/40_execution_cycle.md R110). -/
inductive RunState where
  /-- The engine takes steps. -/
  | running
  /-- A clean, successful halt: the fetched opcode had no handler. -/
  | halted
  /-- A step faulted. -/
  | fatal
deriving DecidableEq, Repr

/-- The causes of a fault (R31, spec/60_exceptions.md R241). -/
inductive FaultCause where
  /-- DIV with a zero divisor (R242). -/
  | divisionByZero
  /-- A data access outside addresses 0 to 65534 (R243). -/
  | memoryAddressOutOfRange
  /-- A register operand above 15 (R244). -/
  | registerIndexOutOfRange
  /-- A fetch whose four-word window leaves memory (R245). -/
  | fetchOutOfRange
deriving DecidableEq, Repr

/-- The fault record (R31): the cause and the info Word of the table of R241. The faulting address is not
stored: it is `x[15]`. -/
structure FaultRecord where
  cause : FaultCause
  info : Word
deriving DecidableEq, Repr

/-- The architectural state (R20): "exactly this tuple, and nothing else". -/
structure State where
  /-- The register file; `x[14]` is SP and `x[15]` is PC (R21, R22). -/
  x : Vector Word 16
  /-- Memory (R33). -/
  mem : Memory
  /-- The run state (R30). -/
  run : RunState
  /-- The fault record; `none` is "no fault recorded" (R31, R36; log 14). -/
  fault : Option FaultRecord
deriving DecidableEq, Repr

/-- Why `step` answers no next state. Neither is a fault of the machine: a fault of the machine is a next
state whose `run` is FATAL (R246; log 4). Both are raised by `step` alone, in the two terminal states, where
"the machine takes no step: registers, memory, `run` and `fault` stay as they are for ever" (R111); the state
asked for a step is then the final state. Safe (log 3). -/
inductive Fault where
  /-- Asked for a step in HALTED. Raised by `step`; safe. -/
  | haltedTakesNoStep
  /-- Asked for a step in FATAL. Raised by `step`; safe. -/
  | fatalTakesNoStep
deriving DecidableEq, Repr

/-- Why an instruction has no meaning. No instruction of this model is refused. -/
inductive Refusal where
  /-- Raised by `exec`'s arm of an instruction that has no meaning yet; safe. No arm of this model does. -/
  | notModelled (mnemonic : String)
deriving DecidableEq, Repr

/-- The state right after reset with the empty image (R36, spec/70_reset_and_hazards.md R280): registers 0 to 13
at `GPR_RESET` (the spec's D8; log 2), SP 65535, PC 0, memory zero, RUNNING, no fault recorded. -/
def State.reset : State where
  x := ((Vector.replicate 16 Config.gprReset).set 14 Config.spReset).set 15 Config.pcReset
  mem := []
  run := .running
  fault := none

end Sys2Proof.Machine
end

