-- ==== Sys2Proof/Machine/Ops.lean ====
section
/-! DEFINITION. The named operations every meaning is built from: `wrap16` (spec/00_scope.md R9), registers
(R10), the memory list, `MemRead` and `MemWrite` (spec/20_memory.md R56, R57), `raise` and `halt` (R10,
spec/60_exceptions.md R246, spec/40_execution_cycle.md R114), and how a handler ends. -/

namespace Sys2Proof.Machine

/-- `wrap16(v)`, the Word congruent to `v` modulo 65536, for negative `v` as well (R9). -/
def wrap16 (v : Int) : Word := BitVec.ofInt 16 v

/-! ### Registers (spec/10_state.md R21 to R23: none is hard-wired, read-only or banked) -/

/-- `x[i]`, a read of register `i` (R10). -/
def State.reg (s : State) (i : RegIndex) : Word := s.x[i]

/-- `x[i] <- v`, a write of register `i` (R10). -/
def State.setReg (s : State) (i : RegIndex) (v : Word) : State := { s with x := s.x.set i v }

/-- `sp`, the alias of `x[14]` (R10, R28). -/
def State.sp (s : State) : Word := s.reg Config.spIndex

/-- `pc`, the alias of `x[15]` (R10, R25). -/
def State.pc (s : State) : Word := s.reg Config.pcIndex

/-! ### The memory list -/

/-- The word at an address: its entry, or what an unlisted address reads as. -/
def Memory.read : Memory → Nat → Word
  | [], _ => Config.memReset
  | c :: m, addr => if c.1 = addr then c.2 else Memory.read m addr

/-- The memory without any entry for an address. -/
def Memory.erase (m : Memory) (addr : Nat) : Memory := m.filter fun c => decide (c.1 ≠ addr)

/-- The memory with an entry put in front of the first one at a higher address. -/
def Memory.insert (addr : Nat) (v : Word) : Memory → Memory
  | [] => [(addr, v)]
  | c :: m => if addr < c.1 then (addr, v) :: c :: m else c :: Memory.insert addr v m

/-- The memory with one word changed, in canonical form: writing what an unlisted address reads as removes
the entry. -/
def Memory.write (m : Memory) (addr : Nat) (v : Word) : Memory :=
  if v = Config.memReset then Memory.erase m addr else Memory.insert addr v (Memory.erase m addr)

/-! ### Access to memory (R56 to R58) -/

/-- Whether the `n` words from `addr` all lie in memory; the sum is not wrapped (R56). -/
def windowInMemory (addr : Word) (n : Nat) : Bool := decide (addr.toNat + n - 1 ≤ Config.lastAddress)

/-- `MemRead(addr, 1)` (R56): the word, or MemoryAddressOutOfRange (R243). -/
def memRead (s : State) (addr : Word) : Except FaultRecord Word :=
  if windowInMemory addr 1 then .ok (Memory.read s.mem addr.toNat)
  else .error ⟨.memoryAddressOutOfRange, addr⟩

/-- `MemRead(addr, 4)` (R56): the four words of an instruction, or FetchOutOfRange (R245). The whole window
is checked before any word is used. -/
def memRead4 (s : State) (addr : Word) : Except FaultRecord InstrWords :=
  if windowInMemory addr Config.instrWords then
    .ok ⟨Memory.read s.mem addr.toNat, Memory.read s.mem (addr.toNat + 1),
      Memory.read s.mem (addr.toNat + 2), Memory.read s.mem (addr.toNat + 3)⟩
  else .error ⟨.fetchOutOfRange, addr⟩

/-- The check `MemWrite` makes before it writes (R57), by itself, for PUSH, which checks before its first
write (R222). -/
def checkDataAddress (addr : Word) : Except FaultRecord Unit :=
  if windowInMemory addr 1 then .ok () else .error ⟨.memoryAddressOutOfRange, addr⟩

/-- The state with one memory word changed; `addr` is known valid (R10). -/
def State.setMem (s : State) (addr : Word) (v : Word) : State :=
  { s with mem := Memory.write s.mem addr.toNat v }

/-- `MemWrite(addr, 1, v)` (R57): the state with the word written, or MemoryAddressOutOfRange (R243). -/
def memWrite (s : State) (addr v : Word) : Except FaultRecord State := do
  checkDataAddress addr
  return s.setMem addr v

/-! ### The two ways a step ends without completing an instruction -/

/-- `raise` (R10, R246), the one place a fault is taken: `run` becomes FATAL, the record is written, and every
register, the PC included, and every memory word stays as it was. Nothing is saved and no control is
transferred (R248). There is no return from it (R249), so no operation stands beside this one. -/
def State.raise (s : State) (f : FaultRecord) : State := { s with run := .fatal, fault := some f }

/-- `halt` (R10, R114): `run` becomes HALTED and nothing else changes. -/
def State.halt (s : State) : State := { s with run := .halted }

/-! ### How a handler ends -/

/-- A handler "either completes, having made all the writes its rule gives, or faults, having made none"
(R115, R246): a check that raised is taken from the state the handler started in. -/
def settle (s : State) (r : Except FaultRecord State) : Host.Outcome State Fault Refusal :=
  match r with
  | .ok t => .next t
  | .error f => .next (s.raise f)

end Sys2Proof.Machine
end

