-- ==== Sys2Proof/Machine/Operands.lean ====
section
/-! DEFINITION. The operand forms: `RegIdx` (spec/40_execution_cycle.md R121), the role of each operand word
under each opcode (spec/30_encoding.md R82, R83), the forms several instructions share, and the effective
addresses (R85, spec/42_data_transfer.md R160, spec/45_stack.md R220). -/

namespace Sys2Proof.Machine

/-- `RegIdx(w)` (R121): the register a whole operand Word names, or RegisterIndexOutOfRange. The index is not
reduced modulo 16 (R84). -/
def regIdx (w : Word) : Except FaultRecord RegIndex :=
  if h : w.toNat ≤ 15 then .ok ⟨w.toNat, Nat.lt_succ_of_le h⟩ else .error ⟨.registerIndexOutOfRange, w⟩

/-- What an operand word is used as (R83). -/
inductive Role where
  | destReg
  | sourceReg
  | immediate
  | address
  | target
  | unused
deriving DecidableEq, Repr

/-- Whether a word in this role goes through `RegIdx` (R121). -/
def Role.isRegister : Role → Bool
  | .destReg | .sourceReg => true
  | .immediate | .address | .target | .unused => false

/-- The table of R83: the roles of `a`, `b` and `c`. -/
def roles : Instr → Role × Role × Role
  | .add _ _ _ | .mul _ _ _ | .sub _ _ _ | .div _ _ _ => (.destReg, .sourceReg, .sourceReg)
  | .equ _ _ _ | .inf _ _ _ | .infe _ _ _ | .sup _ _ _ | .supe _ _ _ => (.destReg, .sourceReg, .sourceReg)
  | .cop _ _ _ => (.destReg, .sourceReg, .unused)
  | .afc _ _ _ => (.destReg, .immediate, .unused)
  | .load _ _ _ => (.destReg, .address, .unused)
  | .str _ _ _ => (.address, .sourceReg, .unused)
  | .jmp _ _ _ => (.target, .unused, .unused)
  | .jmpc _ _ _ => (.target, .sourceReg, .unused)
  | .pop _ _ _ => (.destReg, .unused, .unused)
  | .push _ _ _ => (.sourceReg, .unused, .unused)
  | .unmapped _ _ _ _ => (.unused, .unused, .unused)

/-- The three operand words (R11). -/
def operands : Instr → Word × Word × Word
  | .add a b c | .mul a b c | .sub a b c | .div a b c | .cop a b c | .afc a b c | .load a b c
  | .str a b c | .equ a b c | .inf a b c | .infe a b c | .sup a b c | .supe a b c | .jmp a b c
  | .jmpc a b c | .pop a b c | .push a b c | .unmapped _ a b c => (a, b, c)

/-- The operand words an instruction uses as register indices, in the order `a`, `b`, `c` (R83, R121). -/
def registerWords (i : Instr) : List Word :=
  let (ra, rb, rc) := roles i
  let (a, b, c) := operands i
  ([(ra, a), (rb, b), (rc, c)].filter fun p => p.1.isRegister).map Prod.snd

/-- The signature `RRR` (R82, R140, R180): the three register checks in the order `a`, `b`, `c`, then both
sources, then the one write. `f` computes the result from the sources and may raise. -/
def formRRR (f : Word → Word → Except FaultRecord Word) (a b c : Word) (s : State) :
    Except FaultRecord State := do
  let ra ← regIdx a
  let rb ← regIdx b
  let rc ← regIdx c
  let v ← f (s.reg rb) (s.reg rc)
  return s.setReg ra v

/-- The address PUSH stores to, `wrap16(x[14] - 1)` (R222). -/
def pushAddress (s : State) : Word := wrap16 ((s.sp.toNat : Int) - 1)

/-- The address an instruction stores to when it completes: operand `a` of STR (R164), the decremented SP of
PUSH (R222), none for every other instruction (spec/20_memory.md R54, R67). -/
def storeAddress (i : Instr) (s : State) : Option Word :=
  match i with
  | .str a _ _ => some a
  | .push _ _ _ => some (pushAddress s)
  | .add _ _ _ | .mul _ _ _ | .sub _ _ _ | .div _ _ _ | .cop _ _ _ | .afc _ _ _ | .load _ _ _
  | .equ _ _ _ | .inf _ _ _ | .infe _ _ _ | .sup _ _ _ | .supe _ _ _ | .jmp _ _ _ | .jmpc _ _ _
  | .pop _ _ _ | .unmapped _ _ _ _ => none

/-- What a jump handler leaves in the PC, `wrap16(a - 4)`, so that the engine's advance ends at `a`
(spec/44_control_transfer.md R200). -/
def jumpCompensated (a : Word) : Word := wrap16 ((a.toNat : Int) - Config.pcStep)

end Sys2Proof.Machine
end

