-- ==== Sys2Proof/Machine/Arithmetic.lean ====
section
/-! DEFINITION. The arithmetic instructions ADD, MUL, SUB, DIV (spec/41_arithmetic.md). Operands are unsigned
Words, results are exact integers brought back by `wrap16` (R140, R145; log 10). -/

namespace Sys2Proof.Machine

/-- ADD, `reg[a] = reg[b] + reg[c]` (R141). -/
def execAdd (a b c : Word) (s : State) : Host.Outcome State Fault Refusal :=
  settle s (formRRR (fun u v => .ok (wrap16 ((u.toNat : Int) + v.toNat))) a b c s)

/-- MUL, `reg[a] = reg[b] * reg[c]` (R142). -/
def execMul (a b c : Word) (s : State) : Host.Outcome State Fault Refusal :=
  settle s (formRRR (fun u v => .ok (wrap16 ((u.toNat : Int) * v.toNat))) a b c s)

/-- SUB, `reg[a] = reg[b] - reg[c]` (R143). -/
def execSub (a b c : Word) (s : State) : Host.Outcome State Fault Refusal :=
  settle s (formRRR (fun u v => .ok (wrap16 ((u.toNat : Int) - v.toNat))) a b c s)

/-- The quotient of DIV, or DivisionByZero with info 0, whatever the dividend (R144, R242). -/
def quotient (u v : Word) : Except FaultRecord Word :=
  if v = 0 then .error ⟨.divisionByZero, 0⟩ else .ok (BitVec.ofNat 16 (u.toNat / v.toNat))

/-- DIV, `reg[a] = trunc(reg[b] / reg[c])` (R144). -/
def execDiv (a b c : Word) (s : State) : Host.Outcome State Fault Refusal :=
  settle s (formRRR quotient a b c s)

end Sys2Proof.Machine
end

