-- ==== Sys2Proof/Machine/Flags.lean ====
section
/-! DEFINITION. Flags: the machine has none, no condition codes, no carry and no overflow bit
(spec/10_state.md R29), so there is no flag computation. What stands in their place is the Word a comparison
writes into its destination register. -/

namespace Sys2Proof.Machine

/-- "1 when the relation holds and the Word 0 when it does not", the other 15 bits zero
(spec/43_compare.md R180). -/
def truthWord (holds : Bool) : Word := if holds then 1 else 0

end Sys2Proof.Machine
end

