-- ==== Sys2Proof/Machine/Compare.lean ====
section
/-! DEFINITION. The comparison instructions EQU, INF, INFE, SUP, SUPE (spec/43_compare.md): `b` on the left of
the relation, `c` on the right, both unsigned (R180; log 10). -/

namespace Sys2Proof.Machine

/-- EQU, `reg[a] = (reg[b] == reg[c]) ? 1 : 0` (R181). -/
def execEqu (a b c : Word) (s : State) : Host.Outcome State Fault Refusal :=
  settle s (formRRR (fun u v => .ok (truthWord (decide (u.toNat = v.toNat)))) a b c s)

/-- INF, `reg[a] = (reg[b] < reg[c]) ? 1 : 0` (R182). -/
def execInf (a b c : Word) (s : State) : Host.Outcome State Fault Refusal :=
  settle s (formRRR (fun u v => .ok (truthWord (decide (u.toNat < v.toNat)))) a b c s)

/-- INFE, `reg[a] = (reg[b] <= reg[c]) ? 1 : 0` (R183). -/
def execInfe (a b c : Word) (s : State) : Host.Outcome State Fault Refusal :=
  settle s (formRRR (fun u v => .ok (truthWord (decide (u.toNat ≤ v.toNat)))) a b c s)

/-- SUP, `reg[a] = (reg[b] > reg[c]) ? 1 : 0` (R184). -/
def execSup (a b c : Word) (s : State) : Host.Outcome State Fault Refusal :=
  settle s (formRRR (fun u v => .ok (truthWord (decide (u.toNat > v.toNat)))) a b c s)

/-- SUPE, `reg[a] = (reg[b] >= reg[c]) ? 1 : 0` (R185). -/
def execSupe (a b c : Word) (s : State) : Host.Outcome State Fault Refusal :=
  settle s (formRRR (fun u v => .ok (truthWord (decide (u.toNat ≥ v.toNat)))) a b c s)

end Sys2Proof.Machine
end

