-- ==== Sys2Proof/Machine/Control.lean ====
section
/-! DEFINITION. The control transfer instructions JMP and JMPC (spec/44_control_transfer.md), and the halt of an
opcode without a handler (spec/40_execution_cycle.md R114). A jump handler stores its target minus 4; the
engine's advance completes the jump (R200). -/

namespace Sys2Proof.Machine

/-- JMP, `PC = a - 4` (R201). It never faults. -/
def execJmp (a _b _c : Word) (s : State) : Host.Outcome State Fault Refusal :=
  .next (s.setReg Config.pcIndex (jumpCompensated a))

/-- JMPC, if `reg[b] == 0` then `PC = a - 4`, else no effect (R202). The register is checked whether or not
the jump is taken. -/
def execJmpc (a b _c : Word) (s : State) : Host.Outcome State Fault Refusal :=
  settle s do
    let rb ← regIdx b
    return if s.reg rb = 0 then s.setReg Config.pcIndex (jumpCompensated a) else s

/-- The row `(unmapped)`: the step sets `run` to HALTED and does nothing else; no operand is looked at
(R114, R90). -/
def execUnmapped (_op _a _b _c : Word) (s : State) : Host.Outcome State Fault Refusal :=
  .next s.halt

end Sys2Proof.Machine
end

