-- ==== Sys2Proof/Machine/Stack.lean ====
section
/-! DEFINITION. The stack instructions POP and PUSH (spec/45_stack.md): a full descending stack addressed by
register 14 (R220). The two assignments of each are made in the written order, each reading the live state
(spec/40_execution_cycle.md R120; log 15); all checks come before the first write (R246). -/

namespace Sys2Proof.Machine

/-- POP, `reg[a] = memory[SP]`, then `SP = SP + 1` (R221). -/
def execPop (a _b _c : Word) (s : State) : Host.Outcome State Fault Refusal :=
  settle s do
    let ra ← regIdx a
    let v ← memRead s s.sp
    let s1 := s.setReg ra v
    return s1.setReg Config.spIndex (wrap16 ((s1.sp.toNat : Int) + 1))

/-- PUSH, `SP = SP - 1`, then `memory[SP] = reg[a]` (R222). -/
def execPush (a _b _c : Word) (s : State) : Host.Outcome State Fault Refusal :=
  settle s do
    let ra ← regIdx a
    let t := pushAddress s
    checkDataAddress t
    let s1 := s.setReg Config.spIndex t
    memWrite s1 t (s1.reg ra)

end Sys2Proof.Machine
end

