-- ==== Sys2Proof/Machine/Transfer.lean ====
section
/-! DEFINITION. The data transfer instructions COP, AFC, LOAD, STR (spec/42_data_transfer.md). LOAD's `b` and
STR's `a` are raw addresses, never register indices (R165). -/

namespace Sys2Proof.Machine

/-- COP, `reg[a] = reg[b]` (R161). -/
def execCop (a b _c : Word) (s : State) : Host.Outcome State Fault Refusal :=
  settle s do
    let ra ← regIdx a
    let rb ← regIdx b
    return s.setReg ra (s.reg rb)

/-- AFC, `reg[a] = b`, the immediate as it stands (R162, R86). -/
def execAfc (a b _c : Word) (s : State) : Host.Outcome State Fault Refusal :=
  settle s do
    let ra ← regIdx a
    return s.setReg ra b

/-- LOAD, `reg[a] = memory[b]` (R163). -/
def execLoad (a b _c : Word) (s : State) : Host.Outcome State Fault Refusal :=
  settle s do
    let ra ← regIdx a
    let v ← memRead s b
    return s.setReg ra v

/-- STR, `memory[a] = reg[b]` (R164). -/
def execStr (a b _c : Word) (s : State) : Host.Outcome State Fault Refusal :=
  settle s do
    let rb ← regIdx b
    memWrite s a (s.reg rb)

end Sys2Proof.Machine
end

