-- ==== Sys2Proof/Machine/Dispatch.lean ====
section
/-! DEFINITION. The handler table (spec/30_encoding.md R88, spec/40_execution_cycle.md R115): step 4 of the
engine's protocol, one arm per row of the opcode table. The advance of the PC is the engine's, not the
handler's. -/

namespace Sys2Proof.Machine

def exec (i : Instr) (s : State) : Host.Outcome State Fault Refusal :=
  match i with
  | .add a b c => Sys2Proof.Machine.execAdd a b c s
  | .mul a b c => Sys2Proof.Machine.execMul a b c s
  | .sub a b c => Sys2Proof.Machine.execSub a b c s
  | .div a b c => Sys2Proof.Machine.execDiv a b c s
  | .cop a b c => Sys2Proof.Machine.execCop a b c s
  | .afc a b c => Sys2Proof.Machine.execAfc a b c s
  | .load a b c => Sys2Proof.Machine.execLoad a b c s
  | .str a b c => Sys2Proof.Machine.execStr a b c s
  | .equ a b c => Sys2Proof.Machine.execEqu a b c s
  | .inf a b c => Sys2Proof.Machine.execInf a b c s
  | .infe a b c => Sys2Proof.Machine.execInfe a b c s
  | .sup a b c => Sys2Proof.Machine.execSup a b c s
  | .supe a b c => Sys2Proof.Machine.execSupe a b c s
  | .jmp a b c => Sys2Proof.Machine.execJmp a b c s
  | .jmpc a b c => Sys2Proof.Machine.execJmpc a b c s
  | .pop a b c => Sys2Proof.Machine.execPop a b c s
  | .push a b c => Sys2Proof.Machine.execPush a b c s
  | .unmapped op a b c => Sys2Proof.Machine.execUnmapped op a b c s

end Sys2Proof.Machine
end

