-- ==== Sys2Proof/Machine/Engine.lean ====
section
/-! DEFINITION. The engine's part of a step (spec/40_execution_cycle.md R112): the fetch of step 1, the decoding
of steps 2 and 3, the PC advance of step 6, and what is answered in the terminal states. -/

namespace Sys2Proof.Machine

/-- Step 1: the four words at the PC, or FetchOutOfRange (R113, R245). -/
def fetch (s : State) : Except FaultRecord InstrWords := memRead4 s s.pc

/-- Step 6: "Unconditionally advance PC by 4", from the value the handler left, modulo 65536 (R118). -/
def advancePc (s : State) : State := s.setReg Config.pcIndex (wrap16 ((s.pc.toNat : Int) + Config.pcStep))

/-- What follows a handler: the advance when it completed, nothing after a halt or a fault (R112, R114, R246). -/
def afterHandler (t : State) : State :=
  match t.run with
  | .running => advancePc t
  | .halted => t
  | .fatal => t

/-- One step of a running machine (R112), the debug hook of step 5 left out because it changes nothing
(R116, R267). -/
def runningStep (s : State) : Host.Outcome State Fault Refusal :=
  match fetch s with
  | .error f => .next (s.raise f)
  | .ok w =>
    match exec (decode w) s with
    | .next t => .next (afterHandler t)
    | .fault f => .fault f
    | .refused r => .refused r

/-- What is answered to a request for a step: in RUNNING the step (R112), in HALTED and FATAL that there is
none (R111; log 3). -/
def engineStep (s : State) : Host.Outcome State Fault Refusal :=
  match s.run with
  | .running => runningStep s
  | .halted => .fault .haltedTakesNoStep
  | .fatal => .fault .fatalTakesNoStep

/-- The address an instruction is placed at for the next fetch: the PC where four words can be fetched from it,
else 0 (log 6). -/
def placeAddress (s : State) : Nat := if windowInMemory s.pc Config.instrWords then s.pc.toNat else 0

/-- The memory with four words at `addr` to `addr + 3`. -/
def placeWords (m : Memory) (addr : Nat) (w : InstrWords) : Memory :=
  Memory.write (Memory.write (Memory.write (Memory.write m addr w.op) (addr + 1) w.a) (addr + 2) w.b) (addr + 3) w.c

/-- The state with RUNNING restored where it is not RUNNING, and then no fault recorded: without it no
fetch takes place (R111). -/
def rearm (s : State) : State :=
  match s.run with
  | .running => s
  | .halted => { s with run := .running, fault := none }
  | .fatal => { s with run := .running, fault := none }

/-- The state whose next step fetches and runs the four words: they stand at the PC, which moves only if no
fetch from it is possible (log 6). -/
def placeInstruction (s : State) (w : InstrWords) : State :=
  let addr := placeAddress s
  let s1 := rearm s
  let s2 := if s1.pc.toNat = addr then s1 else s1.setReg Config.pcIndex (BitVec.ofNat 16 addr)
  { s2 with mem := placeWords s2.mem addr w }

end Sys2Proof.Machine
end

