-- ==== Sys2Proof/Machine/Step.lean ====
section
/-! DEFINITION. One step of the machine (spec/40_execution_cycle.md R112), and the placing of an instruction where
the step fetches. Both only call the engine's operations. -/

namespace Sys2Proof.Machine

/-- One pass of the engine through its protocol (spec/00_scope.md R12). -/
def step (s : State) : Host.Outcome State Fault Refusal := engineStep s

/-- `s` with an instruction where `step` fetches next (log 6), its bits numbered from the least significant bit of the
first word (DESIGN CHOICE, safe, log 18). -/
def State.withFetchWord (s : State) (nbits w : Nat) : State := placeInstruction s (tableWords nbits w)

end Sys2Proof.Machine
end

