-- ==== Sys2Proof/Machine/Interface.lean ====
section
/-! DEFINITION. The abstract interface of the CORE (spec/70_reset_and_hazards.md R296): reset with an image
(spec/20_memory.md R70 to R73), status, the final state of a run (spec/40_execution_cycle.md R123), and what the
debug hook sees (spec/60_exceptions.md R264, R265). `resume`, the hook's return, changes no state (R266; log 9). -/

namespace Sys2Proof.Machine

/-! ### Reset and load -/

/-- The memory that holds the words from `addr` on and is zero elsewhere, in canonical form (R70). -/
def Memory.ofWords (addr : Nat) : List Word → Memory
  | [] => []
  | w :: ws =>
    if w = Config.memReset then Memory.ofWords (addr + 1) ws else (addr, w) :: Memory.ofWords (addr + 1) ws

/-- Reset with a program image (R280), refused when the image has more words than memory (R71; log 7). -/
def State.resetWith (img : List Word) : Option State :=
  if img.length ≤ Config.memWords then
    some { State.reset with mem := Memory.ofWords Config.imageBase img }
  else none

/-- One word from its two bytes in file order (R72). -/
def Image.wordOfBytes (order : Config.ByteOrder) (first second : Byte) : Word :=
  match order with
  | .littleEndian => BitVec.ofNat 16 (first.toNat + 256 * second.toNat)
  | .bigEndian => BitVec.ofNat 16 (256 * first.toNat + second.toNat)

/-- The image of a byte sequence, refused when its length is odd (R72; logs 7, 8). Outside the CORE. -/
def Image.ofBytes (order : Config.ByteOrder) : List Byte → Option (List Word)
  | [] => some []
  | [_] => none
  | first :: second :: rest => (Image.ofBytes order rest).map (Image.wordOfBytes order first second :: ·)

/-! ### Status and final state -/

/-- The numeric code of a fault cause, the spec's own (R241, D7). -/
def FaultCause.code : FaultCause → Nat
  | .divisionByZero => 1
  | .memoryAddressOutOfRange => 2
  | .registerIndexOutOfRange => 3
  | .fetchOutOfRange => 4

/-- The status the environment may read between steps: `run` and, when FATAL, the record (R296). -/
def State.status (s : State) : RunState × Option FaultRecord :=
  match s.run with
  | .fatal => (.fatal, s.fault)
  | .running => (.running, none)
  | .halted => (.halted, none)

/-- The state after at most `fuel` steps; a machine that takes no step stays as it is (R111, R123). -/
def runFor : Nat → State → State
  | 0, s => s
  | fuel + 1, s =>
    match step s with
    | .next t => runFor fuel t
    | .fault _ => s
    | .refused _ => s

/-- The final state of the run from `s`, if it ends within `fuel` steps (R123, R296). -/
def finalState (fuel : Nat) (s : State) : Option State :=
  match (runFor fuel s).run with
  | .running => none
  | .halted => some (runFor fuel s)
  | .fatal => some (runFor fuel s)

/-! ### Observation -/

/-- The state the debug hook sees in the step from `s`: the one after the handler and before the PC advance. It
is called for no step that halts or faults, and in no terminal state (R264, R265; log 9). -/
def observe (s : State) : Option State :=
  match s.run with
  | .halted => none
  | .fatal => none
  | .running =>
    match fetch s with
    | .error _ => none
    | .ok w =>
      match exec (decode w) s with
      | .next t => match t.run with
        | .running => some t
        | .halted => none
        | .fatal => none
      | .fault _ => none
      | .refused _ => none

end Sys2Proof.Machine
end

