-- ==== Sys2Proof/Safety.lean ====
section
/-! DEFINITION. The terms claims are stated in: the instruction a state is about to run and the words it was fetched
in, the results of the three-register instructions and the table of faults (spec/60_exceptions.md R241, R247), both
written apart from the meanings, the invariant of the machine's states, and runs that stay out of FATAL. -/

namespace Sys2Proof.Machine

/-! ### The instruction about to run -/

/-- The four words from the PC on (spec/30_encoding.md R80). -/
def wordsAt (s : State) : InstrWords :=
  ⟨Memory.read s.mem s.pc.toNat, Memory.read s.mem (s.pc.toNat + 1), Memory.read s.mem (s.pc.toNat + 2),
    Memory.read s.mem (s.pc.toNat + 3)⟩

/-- The machine is RUNNING and the words `w` stand at its PC, all four inside memory (R113). -/
abbrev standsAt (s : State) (w : InstrWords) : Prop :=
  s.run = .running ∧ s.pc.toNat ≤ 65531 ∧ wordsAt s = w

/-- Of the words `w` fetched at the PC of `s`, the one that stands at address `n`, if `n` is one of the four addresses,
is `v` (R80, R113). -/
abbrev fetchedAt (s : State) (w : InstrWords) (n : Nat) (v : Word) : Prop :=
  (n = s.pc.toNat → w.op = v) ∧ (n = s.pc.toNat + 1 → w.a = v) ∧
  (n = s.pc.toNat + 2 → w.b = v) ∧ (n = s.pc.toNat + 3 → w.c = v)

/-! ### The three-register instructions -/

/-- The nine instructions of the signature `RRR` on one triple of operand words (spec/30_encoding.md R82). -/
def instrsRRR (a b c : Word) : List Instr :=
  [.add a b c, .mul a b c, .sub a b c, .div a b c, .equ a b c, .inf a b c, .infe a b c, .sup a b c, .supe a b c]

/-- What an `RRR` instruction writes for the sources `x` and `y`, as a number (R141 to R144, R181 to R185): nothing for
a zero divisor, and nothing for an instruction of another signature. -/
def resultRRR (i : Instr) (x y : Word) : Option Nat :=
  match i with
  | .add _ _ _ => some ((x.toNat + y.toNat) % 65536)
  | .mul _ _ _ => some (x.toNat * y.toNat % 65536)
  | .sub _ _ _ => some ((x.toNat + 65536 - y.toNat) % 65536)
  | .div _ _ _ => if y.toNat = 0 then none else some (x.toNat / y.toNat)
  | .equ _ _ _ => some (if x.toNat = y.toNat then 1 else 0)
  | .inf _ _ _ => some (if x.toNat < y.toNat then 1 else 0)
  | .infe _ _ _ => some (if x.toNat ≤ y.toNat then 1 else 0)
  | .sup _ _ _ => some (if x.toNat > y.toNat then 1 else 0)
  | .supe _ _ _ => some (if x.toNat ≥ y.toNat then 1 else 0)
  | .cop _ _ _ | .afc _ _ _ | .load _ _ _ | .str _ _ _ | .jmp _ _ _ | .jmpc _ _ _ | .pop _ _ _ | .push _ _ _
  | .unmapped _ _ _ _ => none

/-! ### The table of faults -/

/-- The first word that is no register index (R121, R247). -/
def firstBadIndex (ws : List Word) : Option Word := ws.find? fun w => decide (16 ≤ w.toNat)

/-- The data address that is out of range, if the instruction uses one (R241, cause 2). -/
def badDataAddress (i : Instr) (s : State) : Bool :=
  match i with
  | .load _ b _ => decide (b = 65535)
  | .str a _ _ => decide (a = 65535)
  | .pop _ _ _ => decide (s.sp = 65535)
  | .push _ _ _ => decide (s.sp = 0)
  | .add _ _ _ | .mul _ _ _ | .sub _ _ _ | .div _ _ _ | .cop _ _ _ | .afc _ _ _ | .equ _ _ _ | .inf _ _ _
  | .infe _ _ _ | .sup _ _ _ | .supe _ _ _ | .jmp _ _ _ | .jmpc _ _ _ | .unmapped _ _ _ _ => false

/-- Whether the instruction divides by zero (R241, cause 1). -/
def zeroDivisor (i : Instr) (s : State) : Bool :=
  match i with
  | .div _ _ c => decide (∃ r : RegIndex, r.toWord = c ∧ s.reg r = 0)
  | .add _ _ _ | .mul _ _ _ | .sub _ _ _ | .cop _ _ _ | .afc _ _ _ | .load _ _ _ | .str _ _ _ | .equ _ _ _
  | .inf _ _ _ | .infe _ _ _ | .sup _ _ _ | .supe _ _ _ | .jmp _ _ _ | .jmpc _ _ _ | .pop _ _ _
  | .push _ _ _ | .unmapped _ _ _ _ => false

/-- The fault of an instruction, with the priorities 3, 4 and 5 of R247. -/
def tableFault (i : Instr) (s : State) : Option FaultRecord :=
  match firstBadIndex (registerWords i) with
  | some w => some ⟨.registerIndexOutOfRange, w⟩
  | none =>
    if badDataAddress i s then some ⟨.memoryAddressOutOfRange, 65535⟩
    else if zeroDivisor i s then some ⟨.divisionByZero, 0⟩
    else none

/-- The fault of a step: the fetch comes before everything else (R247, priority 1). -/
def stepFault (s : State) : Option FaultRecord :=
  if s.pc.toNat ≤ 65531 then tableFault (decode (wordsAt s)) s else some ⟨.fetchOutOfRange, s.pc⟩

/-! ### Invariants -/

/-- The record names a fault of the table of spec/60_exceptions.md R241, with the info that table gives; `pc` is
the address of the faulting instruction. -/
def FaultRecord.legal (f : FaultRecord) (pc : Word) : Bool :=
  match f.cause with
  | .divisionByZero => decide (f.info = 0)
  | .memoryAddressOutOfRange => decide (f.info = 65535)
  | .registerIndexOutOfRange => decide (16 ≤ f.info.toNat)
  | .fetchOutOfRange => decide (f.info = pc ∧ 65532 ≤ pc.toNat)

/-- The invariant every step keeps: memory in canonical form inside the address space (spec/10_state.md R37); a
record exactly in FATAL (R31, R36); the record's info as R241 says; and in HALTED the PC at an opcode word without
a handler that could be fetched (spec/40_execution_cycle.md R113, R114). -/
abbrev State.Inv (s : State) : Prop :=
  Memory.wf s.mem ∧
  (s.run = .fatal ↔ s.fault.isSome = true) ∧
  (s.fault.all fun f => f.legal s.pc) = true ∧
  (s.run = .halted → s.pc.toNat ≤ 65531 ∧ hasHandler (Memory.read s.mem s.pc.toNat) = false)

/-- A terminal state explains itself: made RUNNING again with no fault recorded, its next step is that very halt or
fault, because neither changed a register or a memory word (R114, spec/60_exceptions.md R246). -/
abbrev State.explained (s : State) : Prop :=
  s.run ≠ .running → step { s with run := .running, fault := none } = .next s

/-! ### Safe runs -/

/-- The state is not the end of an abnormal run (R110). -/
abbrev State.safe (s : State) : Prop := s.run ≠ .fatal

/-- A run whose first `fuel` steps end no later than there and normally: "a claim that a program terminates normally
means HALTED" (R252). -/
abbrev terminatesNormally (fuel : Nat) (s : State) : Prop := (runFor fuel s).run = .halted

end Sys2Proof.Machine
end

