-- ==== Sys2Proof/Certificates/Slice0/Obligations.lean ====
section
/-! DEFINITION. The statements for the provers. Registers are quantified as `RegIndex` and written as operand words by
`RegIndex.toWord`, which covers exactly the words 0 to 15; operand words that are no register index are quantified as
`Word` and picked out by `firstBadIndex`. `D<n>` in a docstring is a decision of the spec's own
(spec/92_eei_decisions.md). -/

open Sys2Proof Sys2Proof.Machine

/-! ### Encoding -/

/-- R80, R81, R88, R90: decoding the words of a well-formed instruction gives it back, every operand bit included. -/
def Obligations.DecodeAfterEncodeIsIdentity : Prop :=
  ∀ i : Instr, i.wellFormed = true → decode (encode i) = i

/-- R80, R88, R91: every four words are the words of exactly the instruction they decode to, and that one is well
formed. -/
def Obligations.EncodeAfterDecodeIsIdentity : Prop :=
  ∀ w : InstrWords, encode (decode w) = w ∧ (decode w).wellFormed = true

/-- R89, R90 (D11): the opcode is matched on all 16 bits; every word other than 0x0001 to 0x0011 decodes to the halt. -/
def Obligations.OpcodeMatchIsOnTheWholeWord : Prop :=
  ∀ w : InstrWords,
    ((decode w).isUnmapped = true ↔ w.op.toNat = 0 ∨ 18 ≤ w.op.toNat) ∧
    ((decode w).isUnmapped = true → decode w = .unmapped w.op w.a w.b w.c)

/-- R88, R102: words written out from the opcode map decode to the instructions they stand for. -/
def Obligations.SpecEncodingsDecode : Prop :=
  decode ⟨0x0001, 2, 0, 1⟩ = .add 2 0 1 ∧ decode ⟨0x0004, 2, 0, 1⟩ = .div 2 0 1 ∧
  decode ⟨0x0006, 0, 5, 0⟩ = .afc 0 5 0 ∧ decode ⟨0x0007, 3, 100, 0⟩ = .load 3 100 0 ∧
  decode ⟨0x0008, 100, 2, 0⟩ = .str 100 2 0 ∧ decode ⟨0x000A, 2, 0, 1⟩ = .inf 2 0 1 ∧
  decode ⟨0x000E, 12, 0, 0⟩ = .jmp 12 0 0 ∧ decode ⟨0x000F, 0, 3, 0⟩ = .jmpc 0 3 0 ∧
  decode ⟨0x0010, 1, 0, 0⟩ = .pop 1 0 0 ∧ decode ⟨0x0011, 0, 0, 0⟩ = .push 0 0 0 ∧
  decode ⟨0x0101, 2, 0, 1⟩ = .unmapped 0x0101 2 0 1 ∧ decode ⟨0x0000, 99, 99, 99⟩ = .unmapped 0 99 99 99

/-! ### Registers and memory -/

/-- R23: no register is hard-wired, read-only or banked: a write of any of the 16 is what that register reads
afterwards, and it changes nothing else. -/
def Obligations.RegistersAreOrdinary : Prop :=
  ∀ (s : State) (i j : RegIndex) (v : Word),
    (s.setReg i v).reg j = (if i = j then v else s.reg j) ∧
    (s.setReg i v).mem = s.mem ∧ (s.setReg i v).run = s.run ∧ (s.setReg i v).fault = s.fault

/-- R56 (D3, D10): a read of one word gives the word, or faults at 65535; a fetch window is checked whole and read
unwrapped, or faults. -/
def Obligations.MemReadReturnsWordsOrFaults : Prop :=
  ∀ (s : State) (addr : Word),
    (addr.toNat ≤ 65534 → memRead s addr = .ok (Memory.read s.mem addr.toNat)) ∧
    (65534 < addr.toNat → memRead s addr = .error ⟨.memoryAddressOutOfRange, addr⟩) ∧
    (addr.toNat + 3 ≤ 65534 → memRead4 s addr = .ok ⟨Memory.read s.mem addr.toNat,
      Memory.read s.mem (addr.toNat + 1), Memory.read s.mem (addr.toNat + 2), Memory.read s.mem (addr.toNat + 3)⟩) ∧
    (65534 < addr.toNat + 3 → memRead4 s addr = .error ⟨.fetchOutOfRange, addr⟩)

/-- R57 (D3): a write changes the word at its address, which is what a later read and a later fetch give, and nothing
else; at 65535 it faults. -/
def Obligations.MemWriteChangesOneWord : Prop :=
  ∀ (s : State) (addr v : Word),
    (65534 < addr.toNat → memWrite s addr v = .error ⟨.memoryAddressOutOfRange, addr⟩) ∧
    (addr.toNat ≤ 65534 → ∃ t, memWrite s addr v = .ok t ∧ memRead t addr = .ok v ∧
      (∀ w, memRead4 t addr = .ok w → w.op = v) ∧
      (∀ b, b ≠ addr.toNat → Memory.read t.mem b = Memory.read s.mem b) ∧
      t.x = s.x ∧ t.run = s.run ∧ t.fault = s.fault)

/-! ### The instructions: result, completion and faults -/

/-- R141 (D1): ADD writes the sum modulo 65536; a register operand above 15 faults, the first of `a`, `b`, `c`. -/
def Obligations.AddWritesSum : Prop :=
  (∀ (s : State) (ra rb rc : RegIndex), ∃ v : Word,
    v.toNat = ((s.reg rb).toNat + (s.reg rc).toNat) % 65536 ∧
    exec (.add ra.toWord rb.toWord rc.toWord) s = .next (s.setReg ra v)) ∧
  (∀ (s : State) (a b c w : Word), firstBadIndex [a, b, c] = some w →
    exec (.add a b c) s = .next { s with run := .fatal, fault := some ⟨.registerIndexOutOfRange, w⟩ })

/-- R142 (D1): MUL writes the low 16 bits of the product. -/
def Obligations.MulWritesLowProduct : Prop :=
  (∀ (s : State) (ra rb rc : RegIndex), ∃ v : Word,
    v.toNat = ((s.reg rb).toNat * (s.reg rc).toNat) % 65536 ∧
    exec (.mul ra.toWord rb.toWord rc.toWord) s = .next (s.setReg ra v)) ∧
  (∀ (s : State) (a b c w : Word), firstBadIndex [a, b, c] = some w →
    exec (.mul a b c) s = .next { s with run := .fatal, fault := some ⟨.registerIndexOutOfRange, w⟩ })

/-- R143 (D1, D2): SUB writes `x[b] - x[c]` modulo 65536, `b` the minuend. -/
def Obligations.SubWritesDifference : Prop :=
  (∀ (s : State) (ra rb rc : RegIndex), ∃ v : Word,
    (v.toNat : Int) = (((s.reg rb).toNat : Int) - ((s.reg rc).toNat : Int)) % 65536 ∧
    exec (.sub ra.toWord rb.toWord rc.toWord) s = .next (s.setReg ra v)) ∧
  (∀ (s : State) (a b c w : Word), firstBadIndex [a, b, c] = some w →
    exec (.sub a b c) s = .next { s with run := .fatal, fault := some ⟨.registerIndexOutOfRange, w⟩ })

/-- R144 (D2, D5, D6): DIV writes the unsigned quotient; a zero divisor faults with info 0 and changes nothing else,
whatever the dividend; a register operand above 15 is reported in preference. -/
def Obligations.DivWritesQuotientOrFaults : Prop :=
  (∀ (s : State) (ra rb rc : RegIndex), s.reg rc ≠ 0#16 → ∃ v : Word,
    v.toNat = (s.reg rb).toNat / (s.reg rc).toNat ∧
    exec (.div ra.toWord rb.toWord rc.toWord) s = .next (s.setReg ra v)) ∧
  (∀ (s : State) (ra rb rc : RegIndex), s.reg rc = 0#16 →
    exec (.div ra.toWord rb.toWord rc.toWord) s =
      .next { s with run := .fatal, fault := some ⟨.divisionByZero, 0#16⟩ }) ∧
  (∀ (s : State) (a b c w : Word), firstBadIndex [a, b, c] = some w →
    exec (.div a b c) s = .next { s with run := .fatal, fault := some ⟨.registerIndexOutOfRange, w⟩ })

/-- R161: COP copies a register, whatever `c` is; a register operand above 15 faults, `a` first. -/
def Obligations.CopCopiesRegister : Prop :=
  (∀ (s : State) (ra rb : RegIndex) (c : Word),
    exec (.cop ra.toWord rb.toWord c) s = .next (s.setReg ra (s.reg rb))) ∧
  (∀ (s : State) (a b c w : Word), firstBadIndex [a, b] = some w →
    exec (.cop a b c) s = .next { s with run := .fatal, fault := some ⟨.registerIndexOutOfRange, w⟩ })

/-- R162: AFC writes the immediate word as it stands, whatever `c` is; `a` above 15 faults. -/
def Obligations.AfcLoadsImmediate : Prop :=
  (∀ (s : State) (ra : RegIndex) (b c : Word), exec (.afc ra.toWord b c) s = .next (s.setReg ra b)) ∧
  (∀ (s : State) (a b c : Word), 16 ≤ a.toNat →
    exec (.afc a b c) s = .next { s with run := .fatal, fault := some ⟨.registerIndexOutOfRange, a⟩ })

/-- R163 (D3, D6): LOAD writes the memory word at the address operand `b`; `a` above 15 faults, else `b = 65535#16`
faults. -/
def Obligations.LoadReadsMemoryWord : Prop :=
  (∀ (s : State) (ra : RegIndex) (b c : Word), b ≠ 65535#16 →
    exec (.load ra.toWord b c) s = .next (s.setReg ra (Memory.read s.mem b.toNat))) ∧
  (∀ (s : State) (ra : RegIndex) (c : Word),
    exec (.load ra.toWord 65535#16 c) s =
      .next { s with run := .fatal, fault := some ⟨.memoryAddressOutOfRange, 65535#16⟩ }) ∧
  (∀ (s : State) (a b c : Word), 16 ≤ a.toNat →
    exec (.load a b c) s = .next { s with run := .fatal, fault := some ⟨.registerIndexOutOfRange, a⟩ })

/-- R164 (D3, D6): STR writes a register to the memory word at the address operand `a`, and writes nothing else; `b`
above 15 faults, else `a = 65535#16` faults. -/
def Obligations.StrWritesMemoryWord : Prop :=
  (∀ (s : State) (rb : RegIndex) (a c : Word), a ≠ 65535#16 → ∃ t,
    exec (.str a rb.toWord c) s = .next t ∧ Memory.read t.mem a.toNat = s.reg rb ∧
    (∀ n, n ≠ a.toNat → Memory.read t.mem n = Memory.read s.mem n) ∧
    t.x = s.x ∧ t.run = s.run ∧ t.fault = s.fault) ∧
  (∀ (s : State) (rb : RegIndex) (c : Word),
    exec (.str 65535#16 rb.toWord c) s =
      .next { s with run := .fatal, fault := some ⟨.memoryAddressOutOfRange, 65535#16⟩ }) ∧
  (∀ (s : State) (a b c : Word), 16 ≤ b.toNat →
    exec (.str a b c) s = .next { s with run := .fatal, fault := some ⟨.registerIndexOutOfRange, b⟩ })

/-- R181 to R185 (D2): the comparisons write 1 when the unsigned relation of `x[b]` to `x[c]` holds and 0 when it does
not; a register operand above 15 faults. -/
def Obligations.ComparisonsWriteTruth : Prop :=
  (∀ (s : State) (ra rb rc : RegIndex),
    exec (.equ ra.toWord rb.toWord rc.toWord) s =
      .next (s.setReg ra (if (s.reg rb).toNat = (s.reg rc).toNat then 1#16 else 0#16)) ∧
    exec (.inf ra.toWord rb.toWord rc.toWord) s =
      .next (s.setReg ra (if (s.reg rb).toNat < (s.reg rc).toNat then 1#16 else 0#16)) ∧
    exec (.infe ra.toWord rb.toWord rc.toWord) s =
      .next (s.setReg ra (if (s.reg rb).toNat ≤ (s.reg rc).toNat then 1#16 else 0#16)) ∧
    exec (.sup ra.toWord rb.toWord rc.toWord) s =
      .next (s.setReg ra (if (s.reg rb).toNat > (s.reg rc).toNat then 1#16 else 0#16)) ∧
    exec (.supe ra.toWord rb.toWord rc.toWord) s =
      .next (s.setReg ra (if (s.reg rb).toNat ≥ (s.reg rc).toNat then 1#16 else 0#16))) ∧
  (∀ (s : State) (a b c w : Word) (i : Instr),
    i ∈ [Instr.equ a b c, .inf a b c, .infe a b c, .sup a b c, .supe a b c] → firstBadIndex [a, b, c] = some w →
    exec i s = .next { s with run := .fatal, fault := some ⟨.registerIndexOutOfRange, w⟩ })

/-- R201 (D1): the handler of JMP leaves `a - 4` modulo 65536 in the PC and changes nothing else, for every target and
all unused words; the step ends with the PC at `a`. It never faults. -/
def Obligations.JmpReachesTarget : Prop :=
  (∀ (s : State) (a b c : Word), ∃ v : Word, (v.toNat : Int) = ((a.toNat : Int) - 4) % 65536 ∧
    exec (.jmp a b c) s = .next (s.setReg 15 v)) ∧
  (∀ (s : State) (a b c : Word), standsAt s ⟨0x000E, a, b, c⟩ → step s = .next (s.setReg 15 a))

/-- R202 (D1, D4): JMPC does what JMP does when the whole condition register is zero, else nothing; the step ends at
`a` or at the next instruction; `b` above 15 faults whether or not the jump would be taken. -/
def Obligations.JmpcJumpsOnZero : Prop :=
  (∀ (s : State) (rb : RegIndex) (a c : Word), s.reg rb = 0#16 → ∃ v : Word,
    (v.toNat : Int) = ((a.toNat : Int) - 4) % 65536 ∧ exec (.jmpc a rb.toWord c) s = .next (s.setReg 15 v)) ∧
  (∀ (s : State) (rb : RegIndex) (a c : Word), s.reg rb ≠ 0#16 → exec (.jmpc a rb.toWord c) s = .next s) ∧
  (∀ (s : State) (a b c : Word), 16 ≤ b.toNat →
    exec (.jmpc a b c) s = .next { s with run := .fatal, fault := some ⟨.registerIndexOutOfRange, b⟩ }) ∧
  (∀ (s : State) (rb : RegIndex) (a c : Word), standsAt s ⟨0x000F, a, rb.toWord, c⟩ → s.reg rb = 0#16 →
    step s = .next (s.setReg 15 a)) ∧
  (∀ (s : State) (rb : RegIndex) (a c : Word), standsAt s ⟨0x000F, a, rb.toWord, c⟩ → s.reg rb ≠ 0#16 →
    ∃ v : Word, v.toNat = (s.pc.toNat + 4) % 65536 ∧ step s = .next (s.setReg 15 v))

/-- R221 (D1, D3, D5, D6, D17): POP writes the word at SP to `x[a]` and then increments SP modulo 65536; `POP R14` ends
with the popped word plus 1; `a` above 15 faults, else SP 65535 faults. -/
def Obligations.PopReadsAndIncrements : Prop :=
  (∀ (s : State) (ra : RegIndex) (b c : Word), ra ≠ 14 → s.reg 14 ≠ 65535#16 → ∃ p : Word,
    p.toNat = ((s.reg 14).toNat + 1) % 65536 ∧
    exec (.pop ra.toWord b c) s = .next ((s.setReg ra (Memory.read s.mem (s.reg 14).toNat)).setReg 14 p)) ∧
  (∀ (s : State) (b c : Word), s.reg 14 ≠ 65535#16 → ∃ p : Word,
    p.toNat = ((Memory.read s.mem (s.reg 14).toNat).toNat + 1) % 65536 ∧
    exec (.pop 14 b c) s = .next (s.setReg 14 p)) ∧
  (∀ (s : State) (ra : RegIndex) (b c : Word), s.reg 14 = 65535#16 →
    exec (.pop ra.toWord b c) s =
      .next { s with run := .fatal, fault := some ⟨.memoryAddressOutOfRange, 65535#16⟩ }) ∧
  (∀ (s : State) (a b c : Word), 16 ≤ a.toNat →
    exec (.pop a b c) s = .next { s with run := .fatal, fault := some ⟨.registerIndexOutOfRange, a⟩ })

/-- R222 (D1, D3, D5, D6, D17): PUSH decrements SP and writes `x[a]` to the word at the new SP; `PUSH R14` writes the
new SP; `a` above 15 faults, else SP 0 faults with info 65535 and SP unchanged. -/
def Obligations.PushDecrementsAndWrites : Prop :=
  (∀ (s : State) (ra : RegIndex) (b c : Word), s.reg 14 ≠ 0#16 → ∃ (p : Word) (t : State),
    p.toNat + 1 = (s.reg 14).toNat ∧ exec (.push ra.toWord b c) s = .next t ∧
    Memory.read t.mem p.toNat = (if ra = 14 then p else s.reg ra) ∧
    (∀ n, n ≠ p.toNat → Memory.read t.mem n = Memory.read s.mem n) ∧
    t.reg 14 = p ∧ (∀ r : RegIndex, r ≠ 14 → t.reg r = s.reg r) ∧ t.run = s.run ∧ t.fault = s.fault) ∧
  (∀ (s : State) (ra : RegIndex) (b c : Word), s.reg 14 = 0#16 →
    exec (.push ra.toWord b c) s =
      .next { s with run := .fatal, fault := some ⟨.memoryAddressOutOfRange, 65535#16⟩ }) ∧
  (∀ (s : State) (a b c : Word), 16 ≤ a.toNat →
    exec (.push a b c) s = .next { s with run := .fatal, fault := some ⟨.registerIndexOutOfRange, a⟩ })

/-- R114: the meaning of an opcode without a handler completes with `run` HALTED and everything else as it was,
whatever its operand words. -/
def Obligations.UnmappedHaltsAndChangesNothingElse : Prop :=
  ∀ (s : State) (op a b c : Word), exec (.unmapped op a b c) s = .next { s with run := .halted }

/-- R87 (D9): a word the opcode does not use has no effect. -/
def Obligations.UnusedOperandWordsAreIgnored : Prop :=
  ∀ (s : State) (op a b c a' b' c' : Word),
    exec (.cop a b c) s = exec (.cop a b c') s ∧ exec (.afc a b c) s = exec (.afc a b c') s ∧
    exec (.load a b c) s = exec (.load a b c') s ∧ exec (.str a b c) s = exec (.str a b c') s ∧
    exec (.jmpc a b c) s = exec (.jmpc a b c') s ∧ exec (.jmp a b c) s = exec (.jmp a b' c') s ∧
    exec (.pop a b c) s = exec (.pop a b' c') s ∧ exec (.push a b c) s = exec (.push a b' c') s ∧
    exec (.unmapped op a b c) s = exec (.unmapped op a' b' c') s

/-! ### Frames -/

/-- R24: the instructions that only write `x[a]` leave every other register and all of memory unchanged; `run` and the
record change only by a fault, which changes no register at all. -/
def Obligations.RegisterResultFrame : Prop :=
  ∀ (i : Instr) (s t : State) (a b c : Word),
    i ∈ [Instr.add a b c, .mul a b c, .sub a b c, .div a b c, .cop a b c, .afc a b c, .load a b c,
      .equ a b c, .inf a b c, .infe a b c, .sup a b c, .supe a b c] →
    exec i s = .next t →
    (∀ r : RegIndex, r.toWord ≠ a → t.reg r = s.reg r) ∧
    (∀ n, Memory.read t.mem n = Memory.read s.mem n) ∧
    ((t.run = s.run ∧ t.fault = s.fault) ∨ (t.run = .fatal ∧ t.x = s.x))

/-- R24: JMP and JMPC change no register but the PC and no memory word. -/
def Obligations.JumpFrame : Prop :=
  ∀ (i : Instr) (s t : State) (a b c : Word), i ∈ [Instr.jmp a b c, .jmpc a b c] → exec i s = .next t →
    (∀ r : RegIndex, r ≠ 15 → t.reg r = s.reg r) ∧
    (∀ n, Memory.read t.mem n = Memory.read s.mem n) ∧
    ((t.run = s.run ∧ t.fault = s.fault) ∨ (t.run = .fatal ∧ t.x = s.x))

/-- R24: POP changes no register but `x[a]` and SP, and no memory word. -/
def Obligations.PopFrame : Prop :=
  ∀ (s t : State) (a b c : Word), exec (.pop a b c) s = .next t →
    (∀ r : RegIndex, r.toWord ≠ a → r ≠ 14 → t.reg r = s.reg r) ∧
    (∀ n, Memory.read t.mem n = Memory.read s.mem n) ∧
    ((t.run = s.run ∧ t.fault = s.fault) ∨ (t.run = .fatal ∧ t.x = s.x))

/-- R24, R54: STR changes no register, PUSH none but SP; both change no memory word but the one at the address the
meaning stores to, and none at all when they fault. -/
def Obligations.StoreFrame : Prop :=
  ∀ (i : Instr) (s t : State) (a b c : Word), i ∈ [Instr.str a b c, .push a b c] → exec i s = .next t →
    (∀ r : RegIndex, (i = .str a b c ∨ r ≠ 14) → t.reg r = s.reg r) ∧
    (∀ addr : Word, storeAddress i s = some addr →
      ∀ n, n ≠ addr.toNat → Memory.read t.mem n = Memory.read s.mem n) ∧
    ((t.run = s.run ∧ t.fault = s.fault) ∨ (t.run = .fatal ∧ t.x = s.x ∧ t.mem = s.mem))

/-! ### Faults -/

/-- R241, R247 (D6, D7), on handlers: whatever fault the table names, with the first bad index first and the data
address before the zero divisor, is taken and nothing else happens; where it names none the handler completes without a
fault. -/
def Obligations.HandlersFaultAsTheTableSays : Prop :=
  ∀ (i : Instr) (s : State),
    (∀ f, tableFault i s = some f → exec i s = .next { s with run := .fatal, fault := some f }) ∧
    (tableFault i s = none → ∃ t, exec i s = .next t ∧ t.fault = s.fault ∧
      t.run = (if i.isUnmapped then .halted else s.run))

/-- R110, R247 (D6): a RUNNING machine always takes its step, and the step ends in FATAL exactly when a fault applies,
the fetch before everything else, else in HALTED exactly when the opcode is unmapped, else in RUNNING. -/
def Obligations.StepEndsAsTheRunStateTableSays : Prop :=
  ∀ s : State, s.run = .running →
    (∀ f, stepFault s = some f → step s = .next { s with run := .fatal, fault := some f }) ∧
    (stepFault s = none → (decode (wordsAt s)).isUnmapped = true → step s = .next { s with run := .halted }) ∧
    (stepFault s = none → (decode (wordsAt s)).isUnmapped = false →
      ∃ t, step s = .next t ∧ t.run = .running ∧ t.fault = s.fault)

/-- R245 (D3, D10): a PC above 65531 faults before decoding, with the PC as info. -/
def Obligations.FetchOutsideMemoryFaults : Prop :=
  ∀ s : State, s.run = .running → 65531 < s.pc.toNat →
    step s = .next { s with run := .fatal, fault := some ⟨.fetchOutOfRange, s.pc⟩ }

/-- R246 (D5): a step that faults writes FATAL and the record the table gives, changes no register and no memory word,
does not advance the PC, and does not show the hook anything. -/
def Obligations.FaultsArePrecise : Prop :=
  ∀ s t : State, step s = .next t → t.run = .fatal →
    (∃ f, stepFault s = some f ∧ t.fault = some f) ∧
    (∀ r : RegIndex, t.reg r = s.reg r) ∧ (∀ n, Memory.read t.mem n = Memory.read s.mem n) ∧ observe s = none

/-! ### The step -/

/-- R112, R115, R118: with the words `w` at the PC, the step is the handler of the instruction `w` decodes to and then,
if it completed, 4 added to the PC the handler left, modulo 65536; a halt or a fault is not followed by the advance. -/
def Obligations.StepRunsDecodedInstruction : Prop :=
  ∀ (s u : State) (w : InstrWords), standsAt s w → exec (decode w) s = .next u →
    (u.run = .running → ∃ v : Word, v.toNat = (u.pc.toNat + 4) % 65536 ∧ step s = .next (u.setReg 15 v)) ∧
    (u.run ≠ .running → step s = .next u)

/-- R114: an opcode without a handler makes the step set HALTED and do nothing else: no register, the PC included, and no
memory word changes, and the hook sees nothing. -/
def Obligations.UnmappedOpcodeStepHalts : Prop :=
  ∀ (s : State) (op a b c : Word), standsAt s ⟨op, a, b, c⟩ → (op.toNat = 0 ∨ 18 ≤ op.toNat) →
    step s = .next { s with run := .halted } ∧ observe s = none

/-- R111 (D15): in HALTED and in FATAL there is no step, and the state asked for one stays as it is however long; that
`step` then answers these two reasons is the model's choice (log 3). -/
def Obligations.TerminalStatesTakeNoStep : Prop :=
  (∀ s : State, s.run = .halted → step s = .fault .haltedTakesNoStep) ∧
  (∀ s : State, s.run = .fatal → step s = .fault .fatalTakesNoStep) ∧
  (∀ (s : State) (fuel : Nat), s.run ≠ .running → runFor fuel s = s ∧ finalState fuel s = some s)

/-- R119, R26 (D1): an instruction that completes and is no jump and does not name register 15 as its destination moves
the PC by 4, modulo 65536. -/
def Obligations.PcAdvancesByFour : Prop :=
  ∀ (s t : State) (w : InstrWords), standsAt s w → step s = .next t → t.run = .running →
    (∀ a b c, decode w ≠ .jmp a b c ∧ decode w ≠ .jmpc a b c) →
    ¬ ((roles (decode w)).1 = .destReg ∧ (operands (decode w)).1 = 15) →
    t.pc.toNat = (s.pc.toNat + 4) % 65536

/-- R203 (D1): each of the thirteen instructions that write `x[a]`, with `a = 15`, transfers control to the value it
writes plus 4, modulo 65536: AFC, COP, LOAD, POP (which raises SP by 1 as well), ADD, and then, by the result the rules
give, all nine three-register instructions (a DIV by zero has no result: it faults, see DivWritesQuotientOrFaults), the
five comparisons among them reaching address 4 or 5. -/
def Obligations.WritingThePcTransfersControl : Prop :=
  (∀ (s : State) (b c : Word), standsAt s ⟨0x0006, 15, b, c⟩ →
    ∃ t, step s = .next t ∧ t.pc.toNat = (b.toNat + 4) % 65536) ∧
  (∀ (s : State) (rb : RegIndex) (c : Word), standsAt s ⟨0x0005, 15, rb.toWord, c⟩ →
    ∃ t, step s = .next t ∧ t.pc.toNat = ((s.reg rb).toNat + 4) % 65536) ∧
  (∀ (s : State) (b c : Word), standsAt s ⟨0x0007, 15, b, c⟩ → b ≠ 65535#16 →
    ∃ t, step s = .next t ∧ t.pc.toNat = ((Memory.read s.mem b.toNat).toNat + 4) % 65536) ∧
  (∀ (s : State) (b c : Word), standsAt s ⟨0x0010, 15, b, c⟩ → s.sp ≠ 65535#16 →
    ∃ t, step s = .next t ∧ t.pc.toNat = ((Memory.read s.mem s.sp.toNat).toNat + 4) % 65536 ∧
      t.sp.toNat = s.sp.toNat + 1) ∧
  (∀ (s : State) (rb rc : RegIndex), standsAt s ⟨0x0001, 15, rb.toWord, rc.toWord⟩ →
    ∃ t, step s = .next t ∧ t.pc.toNat = ((s.reg rb).toNat + (s.reg rc).toNat + 4) % 65536) ∧
  (∀ (i : Instr) (s : State) (rb rc : RegIndex) (v : Nat),
    i ∈ instrsRRR 15 rb.toWord rc.toWord → standsAt s (encode i) → resultRRR i (s.reg rb) (s.reg rc) = some v →
    ∃ t, step s = .next t ∧ t.pc.toNat = (v + 4) % 65536) ∧
  (∀ (s : State) (op : Word) (rb rc : RegIndex), 0x0009 ≤ op.toNat → op.toNat ≤ 0x000D →
    standsAt s ⟨op, 15, rb.toWord, rc.toWord⟩ → ∃ t, step s = .next t ∧ (t.pc.toNat = 4 ∨ t.pc.toNat = 5))

/-- R204, R25: wherever an instruction can name register 15 as a source, what it reads is its own address: COP copies
it; the nine three-register instructions compute with it, as first source, second source or both, and DIV by it faults
at address 0, where it is zero; STR and PUSH store it; JMPC with it as condition is taken exactly at address 0. An
instruction that also names register 15 as destination ends 4 beyond what it wrote (R203). -/
def Obligations.ReadingThePcGivesOwnAddress : Prop :=
  (∀ (s : State) (ra : RegIndex) (c : Word), standsAt s ⟨0x0005, ra.toWord, 15, c⟩ →
    ∃ t, step s = .next t ∧
      (t.reg ra).toNat = (if ra = 15 then (s.pc.toNat + 4) % 65536 else s.pc.toNat)) ∧
  (∀ (i : Instr) (s : State) (ra rb rc : RegIndex) (v : Nat),
    i ∈ instrsRRR ra.toWord rb.toWord rc.toWord → standsAt s (encode i) → rb = 15 ∨ rc = 15 →
    resultRRR i (if rb = 15 then s.pc else s.reg rb) (if rc = 15 then s.pc else s.reg rc) = some v →
    ∃ t, step s = .next t ∧ (t.reg ra).toNat = (if ra = 15 then (v + 4) % 65536 else v)) ∧
  (∀ (s : State) (ra rb : RegIndex), standsAt s ⟨0x0004, ra.toWord, rb.toWord, 15⟩ → s.pc = 0#16 →
    step s = .next { s with run := .fatal, fault := some ⟨.divisionByZero, 0#16⟩ }) ∧
  (∀ (s : State) (a c : Word), standsAt s ⟨0x0008, a, 15, c⟩ → a ≠ 65535#16 →
    ∃ t, step s = .next t ∧ Memory.read t.mem a.toNat = s.pc) ∧
  (∀ (s : State) (b c : Word), standsAt s ⟨0x0011, 15, b, c⟩ → s.sp ≠ 0#16 →
    ∃ t, step s = .next t ∧ Memory.read t.mem (s.sp.toNat - 1) = s.pc) ∧
  (∀ (s : State) (a c : Word), standsAt s ⟨0x000F, a, 15, c⟩ →
    ∃ t, step s = .next t ∧
      t.pc.toNat = (if s.pc = 0#16 then a.toNat else (s.pc.toNat + 4) % 65536))

/-- R67, R54: a step changes no memory word but the one STR or PUSH stores to: a word that reads differently afterwards
is at the address operand of an STR at the PC, or one below the SP of a PUSH at the PC, and no fault was taken. -/
def Obligations.OnlyStrAndPushChangeMemory : Prop :=
  ∀ (s t : State) (n : Nat), step s = .next t → Memory.read t.mem n ≠ Memory.read s.mem n →
    t.run = .running ∧
    ((∃ a b c, decode (wordsAt s) = .str a b c ∧ n = a.toNat) ∨
     (∃ a b c, decode (wordsAt s) = .push a b c ∧ n + 1 = s.sp.toNat))

/-- R65(a), R292: the word an STR or a PUSH writes is the word the very next step fetches from that address, whichever of
the four words of the next instruction it is; and every later fetch too gives what memory holds when it is made. -/
def Obligations.StoreIsSeenByTheNextFetch : Prop :=
  (∀ (s t : State) (rb : RegIndex) (a c : Word) (w : InstrWords),
    standsAt s ⟨0x0008, a, rb.toWord, c⟩ → a ≠ 65535#16 → step s = .next t → fetch t = .ok w →
    fetchedAt t w a.toNat (s.reg rb)) ∧
  (∀ (s t : State) (ra : RegIndex) (b c : Word) (w : InstrWords),
    standsAt s ⟨0x0011, ra.toWord, b, c⟩ → s.sp ≠ 0#16 → step s = .next t → fetch t = .ok w →
    fetchedAt t w (s.sp.toNat - 1) (if ra = 14 then s.sp - 1#16 else s.reg ra)) ∧
  (∀ (u : State) (n : Nat) (w : InstrWords), fetch u = .ok w → fetchedAt u w n (Memory.read u.mem n))

/-- R264 (D14): the hook sees something in exactly the steps that complete an instruction. R265, R116, R118: what it sees
is the state the handler left, with the PC not yet advanced, and the step then ends in that state with 4 added to the PC.
That the hook always returns, so that the advance follows, and changes no state is log 9 (DEDUCED). -/
def Obligations.HookSeesEveryCompletedInstruction : Prop :=
  (∀ s u : State, observe s = some u → ∃ v : Word, v.toNat = (u.pc.toNat + 4) % 65536 ∧
    step s = .next (u.setReg 15 v) ∧ u.run = .running) ∧
  (∀ s t : State, step s = .next t → t.run = .running → ∃ u, observe s = some u) ∧
  (∀ s t : State, step s = .next t → t.run ≠ .running → observe s = none)

/-! ### Invariants -/

/-- The invariant holds right after reset, with whatever image (R36, R37). -/
def Obligations.InvariantHoldsAfterReset : Prop :=
  State.reset.Inv ∧ ∀ (img : List Word) (s : State), State.resetWith img = some s → s.Inv

/-- R37, R31, R114, R241: every step from a state that meets the invariant ends in one: memory stays in canonical form
inside addresses 0 to 65534, a record stands exactly in FATAL with the info the table gives, and in HALTED the PC stands
at an unmapped opcode. -/
def Obligations.EveryStepKeepsTheInvariant : Prop :=
  ∀ s t : State, s.Inv → step s = .next t → t.Inv

/-- R114, R246: the halt or fault that ended a run can be read off the state it left: made RUNNING again, that state
takes the very same halt or fault. -/
def Obligations.EveryEndExplainsItself : Prop :=
  ∀ s t : State, s.Inv → step s = .next t → t.explained

/-! ### Reset, image, runs -/

/-- R36, R280 (D8 for registers 0 to 13): reset with an image of at most 65535 words; a longer one is refused (R71,
D13). -/
def Obligations.ResetLoadsTheImage : Prop :=
  (∀ img : List Word, img.length ≤ 65535 → ∃ s, State.resetWith img = some s ∧
    (∀ r : RegIndex, r.val ≤ 13 → s.reg r = 0#16) ∧ s.reg 14 = 65535#16 ∧ s.reg 15 = 0#16 ∧
    (∀ n, Memory.read s.mem n = img.getD n 0) ∧ s.run = .running ∧ s.fault = none) ∧
  (∀ img : List Word, 65535 < img.length → State.resetWith img = none) ∧
  State.resetWith [] = some State.reset

/-- R72 (D13): word `i` of an image is made of bytes `2i` and `2i + 1`, low byte first in little-endian order and last in
big-endian order; a byte sequence of odd length is refused. -/
def Obligations.ImageWordsAreBytePairs : Prop :=
  (∀ (order : Config.ByteOrder) (bs : List Byte), bs.length % 2 = 1 → Image.ofBytes order bs = none) ∧
  (∀ bs : List Byte, bs.length % 2 = 0 → ∃ ws, Image.ofBytes .littleEndian bs = some ws ∧
    2 * ws.length = bs.length ∧ ∀ i, i < ws.length →
      (ws.getD i 0).toNat = (bs.getD (2 * i) 0).toNat + 256 * (bs.getD (2 * i + 1) 0).toNat) ∧
  (∀ bs : List Byte, bs.length % 2 = 0 → ∃ ws, Image.ofBytes .bigEndian bs = some ws ∧
    2 * ws.length = bs.length ∧ ∀ i, i < ws.length →
      (ws.getD i 0).toNat = 256 * (bs.getD (2 * i) 0).toNat + (bs.getD (2 * i + 1) 0).toNat)

/-- R123: a run that has ended stays ended: the final state found with some fuel is terminal and is found with any more
fuel; and a run that has not ended yet is still RUNNING. -/
def Obligations.FinalStateIsFinal : Prop :=
  ∀ (fuel : Nat) (s : State),
    (∀ t, finalState fuel s = some t →
      t.run ≠ .running ∧ ∀ more, runFor (fuel + more) s = t ∧ finalState (fuel + more) s = some t) ∧
    (finalState fuel s = none → (runFor fuel s).run = .running)

/-- The model's own way to place an instruction (log 6), its bits numbered from the first word (log 18): whatever the
state, the next step after `withFetchWord` fetches exactly the placed words. -/
def Obligations.PlacedInstructionIsFetchedNext : Prop :=
  ∀ (s : State) (n : Nat), standsAt (s.withFetchWord 64 n) (tableWords 64 n)

/-! ### Properties over several instructions -/

/-- R146: `ADD(i,j,k)` then `SUB(i,i,k)` restores `x[j]` in `x[i]`, under the provisos the rule works out. -/
def Obligations.AddThenSubRestores : Prop :=
  ∀ (s t u : State) (i j k : RegIndex), i ≠ k → i ≠ 15 → k ≠ 15 →
    standsAt s ⟨0x0001, i.toWord, j.toWord, k.toWord⟩ → step s = .next t →
    standsAt t ⟨0x0003, i.toWord, i.toWord, k.toWord⟩ → step t = .next u →
    u.run = .running ∧ u.reg i = s.reg j

/-- R223: `PUSH r` then `POP q` brings SP back and `x[r]` into `x[q]`, under the provisos of the rule; the pushed word
stays in memory one below SP. -/
def Obligations.PushThenPopRestores : Prop :=
  ∀ (s t u : State) (r q : RegIndex) (b c b' c' : Word), r ≠ 14 → q ≠ 14 → q ≠ 15 → s.sp ≠ 0#16 →
    standsAt s ⟨0x0011, r.toWord, b, c⟩ → step s = .next t →
    standsAt t ⟨0x0010, q.toWord, b', c'⟩ → step t = .next u →
    u.run = .running ∧ u.sp = s.sp ∧ u.reg q = s.reg r ∧ Memory.read u.mem (s.sp.toNat - 1) = s.reg r

/-- R186, R184, R185: INF and SUPE are complements, INFE and SUP are complements, and SUP, SUPE are INF, INFE with the
sources exchanged. -/
def Obligations.ComparisonsAreComplementary : Prop :=
  ∀ (s : State) (ra rb rc : RegIndex),
    (∃ v w : Word, exec (.inf ra.toWord rb.toWord rc.toWord) s = .next (s.setReg ra v) ∧
      exec (.supe ra.toWord rb.toWord rc.toWord) s = .next (s.setReg ra w) ∧ v.toNat + w.toNat = 1) ∧
    (∃ v w : Word, exec (.infe ra.toWord rb.toWord rc.toWord) s = .next (s.setReg ra v) ∧
      exec (.sup ra.toWord rb.toWord rc.toWord) s = .next (s.setReg ra w) ∧ v.toNat + w.toNat = 1) ∧
    exec (.sup ra.toWord rb.toWord rc.toWord) s = exec (.inf ra.toWord rc.toWord rb.toWord) s ∧
    exec (.supe ra.toWord rb.toWord rc.toWord) s = exec (.infe ra.toWord rc.toWord rb.toWord) s
end

