-- ==== Sys2Proof/Laws/Memory.lean ====
section
/-! SUPPORT. The memory list: reading after writing, and that every memory operation keeps the canonical form. -/

namespace Sys2Proof.Machine

@[simp] theorem Memory.read_nil (b : Nat) : Memory.read [] b = 0#16 := rfl

theorem Memory.read_erase (m : Memory) (a b : Nat) :
    Memory.read (Memory.erase m a) b = if a = b then 0#16 else Memory.read m b := by
  induction m with
  | nil => simp [Memory.erase]
  | cons c m ih =>
    simp only [Memory.erase, List.filter_cons, ne_eq, decide_not] at ih ⊢
    by_cases hc : c.1 = a
    · by_cases hab : a = b
      · simpa [hc, hab] using ih
      · simpa [hc, hab, Memory.read] using ih
    · by_cases hcb : c.1 = b
      · have : a ≠ b := fun h => hc (hcb.trans h.symm)
        simp [hcb, this, Memory.read, Ne.symm this]
      · simp [hc, hcb, Memory.read, ih]

theorem Memory.read_insert (m : Memory) (a b : Nat) (v : Word) (ha : ∀ c ∈ m, c.1 ≠ a) :
    Memory.read (Memory.insert a v m) b = if a = b then v else Memory.read m b := by
  induction m with
  | nil => simp [Memory.insert, Memory.read]
  | cons c m ih =>
    have hm : ∀ d ∈ m, d.1 ≠ a := fun d hd => ha d (List.mem_cons_of_mem _ hd)
    have hc : c.1 ≠ a := ha c List.mem_cons_self
    by_cases h : a < c.1
    · simp [Memory.insert, h, Memory.read]
    · by_cases hab : a = b
      · subst hab; simp [Memory.insert, h, Memory.read, ih hm, hc]
      · simp [Memory.insert, h, Memory.read, ih hm, hab]

theorem Memory.erase_ne (m : Memory) (a : Nat) : ∀ c ∈ Memory.erase m a, c.1 ≠ a := by
  simp [Memory.erase]

/-- One word changes and no other, in a memory in canonical form or not. -/
theorem Memory.read_write (m : Memory) (a b : Nat) (v : Word) :
    Memory.read (Memory.write m a v) b = if a = b then v else Memory.read m b := by
  by_cases hv : v = 0#16
  · simp [Memory.write, hv, Memory.read_erase]
  · by_cases hab : a = b
    · subst hab; simp [Memory.write, hv, Memory.read_insert _ _ _ _ (Memory.erase_ne m a)]
    · simp [Memory.write, hv, Memory.read_insert _ _ _ _ (Memory.erase_ne m a), hab, Memory.read_erase]

@[simp] theorem Memory.read_write_same (m : Memory) (a : Nat) (v : Word) :
    Memory.read (Memory.write m a v) a = v := by
  simp [Memory.read_write]

@[simp] theorem Memory.read_write_ne (m : Memory) {a b : Nat} (v : Word) (h : b ≠ a) :
    Memory.read (Memory.write m a v) b = Memory.read m b := by
  simp [Memory.read_write, Ne.symm h]

theorem Memory.erase_wf {m : Memory} (h : Memory.wf m) (a : Nat) : Memory.wf (Memory.erase m a) :=
  ⟨h.1.filter _, fun c hc => h.2 c (List.mem_filter.mp hc).1⟩

theorem Memory.mem_insert {m : Memory} {a : Nat} {v : Word} {c : Cell} :
    c ∈ Memory.insert a v m ↔ c = (a, v) ∨ c ∈ m := by
  induction m with
  | nil => simp [Memory.insert]
  | cons d m ih =>
    by_cases h : a < d.1
    · simp [Memory.insert, h]
    · simp only [Memory.insert, h, if_false, List.mem_cons, ih]; tauto

theorem Memory.insert_wf {m : Memory} (h : Memory.wf m) {a : Nat} {v : Word} (ha : a < Config.memWords)
    (hv : v ≠ Config.memReset) (hne : ∀ c ∈ m, c.1 ≠ a) : Memory.wf (Memory.insert a v m) := by
  refine ⟨?_, fun c hc => ?_⟩
  · induction m with
    | nil => simp [Memory.insert]
    | cons d m ih =>
      obtain ⟨hd, hm⟩ := List.pairwise_cons.mp h.1
      by_cases hlt : a < d.1
      · simp only [Memory.insert, hlt, if_true, List.pairwise_cons]
        refine ⟨fun c hc => ?_, hd, hm⟩
        rcases List.mem_cons.mp hc with rfl | hc
        · exact hlt
        · exact hlt.trans (hd c hc)
      · simp only [Memory.insert, hlt, if_false, List.pairwise_cons]
        refine ⟨fun c hc => ?_, ih ⟨hm, fun c hc => h.2 c (List.mem_cons_of_mem _ hc)⟩
          fun c hc => hne c (List.mem_cons_of_mem _ hc)⟩
        rcases Memory.mem_insert.mp hc with rfl | hc
        · have := hne d List.mem_cons_self; dsimp only; omega
        · exact hd c hc
  · rcases Memory.mem_insert.mp hc with rfl | hc
    · exact ⟨ha, hv⟩
    · exact h.2 c hc

/-- A write inside the address space keeps the canonical form. -/
theorem Memory.write_wf {m : Memory} (h : Memory.wf m) {a : Nat} (ha : a < Config.memWords) (v : Word) :
    Memory.wf (Memory.write m a v) := by
  by_cases hv : v = Config.memReset
  · simpa only [Memory.write, hv, if_true] using Memory.erase_wf h a
  · simpa only [Memory.write, hv, if_false] using
      Memory.insert_wf (Memory.erase_wf h a) ha hv (Memory.erase_ne m a)

theorem Memory.reset_wf : Memory.wf State.reset.mem := by decide

/-- An address below every listed one reads as an unlisted one. -/
theorem Memory.read_of_lt {m : Memory} {a : Nat} (h : ∀ c ∈ m, a < c.1) : Memory.read m a = 0#16 := by
  induction m with
  | nil => rfl
  | cons c m ih =>
    have hc : c.1 ≠ a := (h c List.mem_cons_self).ne'
    simpa [Memory.read, hc] using ih fun d hd => h d (List.mem_cons_of_mem _ hd)

/-- Equal memories are equal data: two memories in canonical form that read alike are the same list. -/
theorem Memory.ext_of_wf {m n : Memory} (hm : Memory.wf m) (hn : Memory.wf n)
    (h : ∀ a, Memory.read m a = Memory.read n a) : m = n := by
  induction m generalizing n with
  | nil =>
    cases n with
    | nil => rfl
    | cons d n =>
      exact absurd (by simpa [Memory.read] using (h d.1).symm) (hn.2 d List.mem_cons_self).2
  | cons c m ih =>
    obtain ⟨hc, hm'⟩ := List.pairwise_cons.mp hm.1
    cases n with
    | nil => exact absurd (by simpa [Memory.read] using h c.1) (hm.2 c List.mem_cons_self).2
    | cons d n =>
      obtain ⟨hd, hn'⟩ := List.pairwise_cons.mp hn.1
      have hc0 : c.2 ≠ 0#16 := (hm.2 c List.mem_cons_self).2
      have hd0 : d.2 ≠ 0#16 := (hn.2 d List.mem_cons_self).2
      have low : ∀ {k : Cell} {l : Memory} {a : Nat}, (∀ e ∈ l, k.1 < e.1) → a < k.1 →
          Memory.read (k :: l) a = 0#16 := fun hl ha => Memory.read_of_lt fun e he => by
        rcases List.mem_cons.mp he with rfl | he
        · exact ha
        · exact ha.trans (hl e he)
      have hk : c.1 = d.1 := by
        rcases Nat.lt_trichotomy c.1 d.1 with hlt | heq | hgt
        · have := h c.1
          rw [low hd hlt] at this
          exact absurd (by simpa [Memory.read] using this) hc0
        · exact heq
        · have := h d.1
          rw [low hc hgt] at this
          exact absurd (by simpa [Memory.read] using this.symm) hd0
      have hv : c.2 = d.2 := by simpa [Memory.read, hk] using h c.1
      have hcd : c = d := Prod.ext hk hv
      subst hcd
      congr 1
      refine ih ⟨hm', fun e he => hm.2 e (List.mem_cons_of_mem _ he)⟩
        ⟨hn', fun e he => hn.2 e (List.mem_cons_of_mem _ he)⟩ fun a => ?_
      by_cases ha : c.1 = a
      · subst ha
        rw [Memory.read_of_lt hc, Memory.read_of_lt hd]
      · simpa [Memory.read, ha] using h a

theorem Memory.ofWords_ge {addr : Nat} {ws : List Word} : ∀ c ∈ Memory.ofWords addr ws, addr ≤ c.1 := by
  induction ws generalizing addr with
  | nil => simp [Memory.ofWords]
  | cons w ws ih =>
    intro c hc
    by_cases hw : w = 0#16
    · simp only [Memory.ofWords, Config.memReset_eq, hw, if_true] at hc
      exact (ih c hc).trans' (Nat.le_succ _)
    · simp only [Memory.ofWords, Config.memReset_eq, hw, if_false, List.mem_cons] at hc
      rcases hc with rfl | hc
      · exact le_rfl
      · exact (ih c hc).trans' (Nat.le_succ _)

theorem Memory.ofWords_wf {addr : Nat} {ws : List Word} (h : addr + ws.length ≤ Config.memWords) :
    Memory.wf (Memory.ofWords addr ws) := by
  induction ws generalizing addr with
  | nil => simp [Memory.ofWords, Memory.wf]
  | cons w ws ih =>
    have h' : addr + 1 + ws.length ≤ Config.memWords := by simp only [List.length_cons] at h; omega
    by_cases hw : w = Config.memReset
    · simpa only [Memory.ofWords, hw, if_true] using ih h'
    · simp only [Memory.ofWords, hw, if_false]
      refine ⟨List.pairwise_cons.mpr ⟨fun c hc => Memory.ofWords_ge c hc, (ih h').1⟩, fun c hc => ?_⟩
      rcases List.mem_cons.mp hc with rfl | hc
      · exact ⟨by dsimp only; omega, hw⟩
      · exact (ih h').2 c hc

/-- What the memory of an image reads as, address by address. -/
theorem Memory.read_ofWords (addr : Nat) (ws : List Word) (n : Nat) :
    Memory.read (Memory.ofWords addr ws) n = if n < addr then 0#16 else ws.getD (n - addr) 0#16 := by
  induction ws generalizing addr with
  | nil => simp [Memory.ofWords]
  | cons w ws ih =>
    by_cases hn : n < addr
    · rw [Memory.read_of_lt fun c hc => lt_of_lt_of_le hn (Memory.ofWords_ge c hc)]; simp [hn]
    · by_cases he : n = addr
      · subst he
        by_cases hw : w = 0#16
        · simp only [Memory.ofWords, hw, Config.memReset_eq, if_true, ih]; simp
        · simp [Memory.ofWords, hw, Memory.read]
      · have h1 : n - addr = (n - (addr + 1)) + 1 := by omega
        have h2 : ¬ n < addr + 1 := by omega
        by_cases hw : w = 0#16
        · simp only [Memory.ofWords, hw, Config.memReset_eq, if_true, ih, hn, h2, if_false, h1, List.getD_cons_succ]
        · simp only [Memory.ofWords, hw, Config.memReset_eq, if_false, Memory.read, Ne.symm he, ih, hn, h2, h1, List.getD_cons_succ]

end Sys2Proof.Machine
end

