-- ==== Sys2Proof/Laws/State.lean ====
section
/-! SUPPORT. One lemma per field per update of the state, so that no proof unfolds a record update. -/

namespace Sys2Proof.Machine

variable (s : State) (i j : RegIndex) (v addr : Word) (f : FaultRecord)

@[simp] theorem State.setReg_mem : (s.setReg i v).mem = s.mem := rfl
@[simp] theorem State.setReg_run : (s.setReg i v).run = s.run := rfl
@[simp] theorem State.setReg_fault : (s.setReg i v).fault = s.fault := rfl

@[simp] theorem State.reg_setReg_same : (s.setReg i v).reg i = v := by
  simp [State.reg, State.setReg]

theorem State.reg_setReg : (s.setReg i v).reg j = if i = j then v else s.reg j := by
  simp only [State.reg, State.setReg, Fin.getElem_fin, Vector.getElem_set, Fin.ext_iff]

@[simp] theorem State.reg_setReg_ne (h : j ≠ i) : (s.setReg i v).reg j = s.reg j := by
  simp [State.reg_setReg, Ne.symm h]

@[simp] theorem State.setReg_setReg (w : Word) : (s.setReg i v).setReg i w = s.setReg i w := by
  simp [State.setReg]

@[simp] theorem State.setMem_x : (s.setMem addr v).x = s.x := rfl
@[simp] theorem State.setMem_reg : (s.setMem addr v).reg i = s.reg i := rfl
@[simp] theorem State.setMem_mem : (s.setMem addr v).mem = Memory.write s.mem addr.toNat v := rfl
@[simp] theorem State.setMem_run : (s.setMem addr v).run = s.run := rfl
@[simp] theorem State.setMem_fault : (s.setMem addr v).fault = s.fault := rfl

@[simp] theorem State.raise_x : (s.raise f).x = s.x := rfl
@[simp] theorem State.raise_reg : (s.raise f).reg i = s.reg i := rfl
@[simp] theorem State.raise_mem : (s.raise f).mem = s.mem := rfl
@[simp] theorem State.raise_run : (s.raise f).run = .fatal := rfl
@[simp] theorem State.raise_fault : (s.raise f).fault = some f := rfl

@[simp] theorem State.halt_x : s.halt.x = s.x := rfl
@[simp] theorem State.halt_reg : s.halt.reg i = s.reg i := rfl
@[simp] theorem State.halt_mem : s.halt.mem = s.mem := rfl
@[simp] theorem State.halt_run : s.halt.run = .halted := rfl
@[simp] theorem State.halt_fault : s.halt.fault = s.fault := rfl

@[simp] theorem advancePc_mem : (advancePc s).mem = s.mem := rfl
@[simp] theorem advancePc_run : (advancePc s).run = s.run := rfl
@[simp] theorem advancePc_fault : (advancePc s).fault = s.fault := rfl
@[simp] theorem advancePc_pc : (advancePc s).pc = wrap16 ((s.pc.toNat : Int) + 4) := by
  simp [advancePc, State.pc]
@[simp] theorem advancePc_reg_ne (h : i ≠ 15) : (advancePc s).reg i = s.reg i := by
  simp [advancePc, h]

/-- Two states with the same registers, memory, run state and record are the same state. -/
theorem State.ext_reg {s t : State} (hx : ∀ i, s.reg i = t.reg i) (hm : s.mem = t.mem) (hr : s.run = t.run)
    (hf : s.fault = t.fault) : s = t := by
  obtain ⟨sx, sm, sr, sf⟩ := s
  obtain ⟨tx, tm, tr, tf⟩ := t
  have : sx = tx := Vector.ext fun k hk => hx ⟨k, hk⟩
  simp_all

end Sys2Proof.Machine
end

