-- ==== Sys2Proof/Laws/Ops.lean ====
section
/-! SUPPORT. For each shared operation what it answers, once: `wrap16`, `RegIdx`, `MemRead`, `MemWrite`, the
form `RRR`, `settle`, the fetch, and the PC arithmetic. -/

namespace Sys2Proof.Machine

/-! ### wrap16 -/

theorem toNat_wrap16 (v : Int) : ((wrap16 v).toNat : Int) = v % 65536 := by
  have : (0 : Int) ≤ v % 65536 := Int.emod_nonneg _ (by decide)
  rw [wrap16, BitVec.toNat_ofInt]; omega

theorem wrap16_add (u v : Word) : wrap16 ((u.toNat : Int) + v.toNat) = u + v := by
  apply BitVec.eq_of_toNat_eq
  have h := toNat_wrap16 ((u.toNat : Int) + v.toNat)
  rw [BitVec.toNat_add]; omega

theorem wrap16_mul (u v : Word) : wrap16 ((u.toNat : Int) * v.toNat) = u * v := by
  apply BitVec.eq_of_toNat_eq
  have h := toNat_wrap16 ((u.toNat : Int) * v.toNat)
  rw [← Nat.cast_mul] at h ⊢
  rw [BitVec.toNat_mul]; omega

theorem wrap16_sub (u v : Word) : wrap16 ((u.toNat : Int) - v.toNat) = u - v := by
  apply BitVec.eq_of_toNat_eq
  have h := toNat_wrap16 ((u.toNat : Int) - v.toNat)
  have := v.isLt
  rw [BitVec.toNat_sub]; omega

theorem wrap16_toNat (u : Word) : wrap16 (u.toNat : Int) = u := by
  apply BitVec.eq_of_toNat_eq
  have h := toNat_wrap16 (u.toNat : Int)
  have := u.isLt; omega

/-- The two halves of a jump cancel: `wrap16(wrap16(a - 4) + 4) = a`. -/
theorem wrap16_jumpCompensated_add (a : Word) : wrap16 (((jumpCompensated a).toNat : Int) + 4) = a := by
  apply BitVec.eq_of_toNat_eq
  have h := toNat_wrap16 ((a.toNat : Int) - 4)
  have h' := toNat_wrap16 (((jumpCompensated a).toNat : Int) + 4)
  have ha := a.isLt
  simp only [jumpCompensated, Config.pcStep_eq, Nat.cast_ofNat] at h' ⊢; omega

/-! ### Checks in sequence -/

theorem bind_eq_ok {α β : Type} {x : Except FaultRecord α} {g : α → Except FaultRecord β} {b : β} :
    (x >>= g) = .ok b ↔ ∃ a, x = .ok a ∧ g a = .ok b := by
  cases x <;> simp [bind, Except.bind]

theorem bind_eq_error {α β : Type} {x : Except FaultRecord α} {g : α → Except FaultRecord β} {f : FaultRecord} :
    (x >>= g) = .error f ↔ x = .error f ∨ ∃ a, x = .ok a ∧ g a = .error f := by
  cases x <;> simp [bind, Except.bind]

theorem pure_eq_ok {α : Type} {a b : α} : (pure a : Except FaultRecord α) = .ok b ↔ a = b := by
  simp [pure, Except.pure]

theorem pure_ne_error {α : Type} {a : α} {f : FaultRecord} : (pure a : Except FaultRecord α) = .error f ↔ False := by
  simp [pure, Except.pure]

/-! ### RegIdx -/

@[simp] theorem RegIndex.toNat_toWord (r : RegIndex) : r.toWord.toNat = r.val := by
  have := r.isLt
  simp only [RegIndex.toWord, BitVec.toNat_ofNat]; omega

@[simp] theorem regIdx_toWord (r : RegIndex) : regIdx r.toWord = .ok r := by
  have := r.isLt
  have h : r.val ≤ 15 := by omega
  simp [regIdx, h]

theorem regIdx_error {w : Word} (h : 16 ≤ w.toNat) : regIdx w = .error ⟨.registerIndexOutOfRange, w⟩ := by
  have : ¬ w.toNat ≤ 15 := by omega
  simp [regIdx, this]

/-- A Word either names a register, and is then that register's Word, or is above 15. -/
theorem regIdx_cases (w : Word) :
    (∃ r : RegIndex, w = r.toWord ∧ regIdx w = .ok r) ∨
    (16 ≤ w.toNat ∧ regIdx w = .error ⟨.registerIndexOutOfRange, w⟩) := by
  by_cases h : w.toNat ≤ 15
  · refine .inl ⟨⟨w.toNat, by omega⟩, ?_, by simp [regIdx, h]⟩
    apply BitVec.eq_of_toNat_eq
    rw [RegIndex.toNat_toWord]
  · exact .inr ⟨by omega, regIdx_error (by omega)⟩

theorem regIdx_eq_ok {w : Word} {r : RegIndex} : regIdx w = .ok r ↔ w = r.toWord := by
  refine ⟨fun h => ?_, fun h => h ▸ regIdx_toWord r⟩
  rcases regIdx_cases w with ⟨q, hq, e⟩ | ⟨-, e⟩ <;> rw [e] at h <;> cases h
  exact hq

theorem regIdx_eq_error {w : Word} {f : FaultRecord} :
    regIdx w = .error f ↔ 16 ≤ w.toNat ∧ f = ⟨.registerIndexOutOfRange, w⟩ := by
  refine ⟨fun h => ?_, fun ⟨h, e⟩ => e ▸ regIdx_error h⟩
  rcases regIdx_cases w with ⟨q, hq, e⟩ | ⟨hw, e⟩ <;> rw [e] at h <;> cases h
  exact ⟨hw, rfl⟩

/-! ### MemRead and MemWrite -/

theorem windowInMemory_one (addr : Word) : windowInMemory addr 1 = decide (addr ≠ 65535#16) := by
  have h : addr = 65535#16 ↔ addr.toNat = 65535 := by
    rw [← BitVec.toNat_inj]; rfl
  have := addr.isLt
  simp only [windowInMemory, Config.lastAddress_eq, ne_eq, h]
  exact decide_eq_decide.mpr (by omega)

theorem windowInMemory_four (addr : Word) : windowInMemory addr 4 = decide (addr.toNat ≤ 65531) := by
  simp only [windowInMemory, Config.lastAddress_eq]
  exact decide_eq_decide.mpr (by omega)

theorem memRead_ok {s : State} {addr : Word} (h : addr ≠ 65535#16) :
    memRead s addr = .ok (Memory.read s.mem addr.toNat) := by
  simp [memRead, windowInMemory_one, h]

theorem memRead_error (s : State) : memRead s 65535#16 = .error ⟨.memoryAddressOutOfRange, 65535#16⟩ := by
  simp [memRead, windowInMemory_one]

theorem checkDataAddress_ok {addr : Word} (h : addr ≠ 65535#16) : checkDataAddress addr = .ok () := by
  simp [checkDataAddress, windowInMemory_one, h]

theorem checkDataAddress_error : checkDataAddress 65535#16 = .error ⟨.memoryAddressOutOfRange, 65535#16⟩ := by
  simp [checkDataAddress, windowInMemory_one]

theorem memWrite_ok {s : State} {addr : Word} (v : Word) (h : addr ≠ 65535#16) :
    memWrite s addr v = .ok (s.setMem addr v) := by
  simp [memWrite, checkDataAddress_ok h, bind, Except.bind, pure, Except.pure]

theorem memWrite_error (s : State) (v : Word) :
    memWrite s 65535#16 v = .error ⟨.memoryAddressOutOfRange, 65535#16⟩ := by
  simp [memWrite, checkDataAddress_error, bind, Except.bind]

theorem memRead_eq_ok {s : State} {addr v : Word} :
    memRead s addr = .ok v ↔ addr ≠ 65535#16 ∧ v = Memory.read s.mem addr.toNat := by
  by_cases h : addr = 65535#16
  · subst h; simp [memRead_error]
  · simp [memRead_ok h, h, eq_comm]

theorem memRead_eq_error {s : State} {addr : Word} {f : FaultRecord} :
    memRead s addr = .error f ↔ addr = 65535#16 ∧ f = ⟨.memoryAddressOutOfRange, 65535#16⟩ := by
  by_cases h : addr = 65535#16
  · subst h; simp [memRead_error, eq_comm]
  · simp [memRead_ok h, h]

theorem checkDataAddress_eq_ok {addr : Word} {u : Unit} : checkDataAddress addr = .ok u ↔ addr ≠ 65535#16 := by
  by_cases h : addr = 65535#16
  · subst h; simp [checkDataAddress_error]
  · simp [checkDataAddress_ok h, h]

theorem checkDataAddress_eq_error {addr : Word} {f : FaultRecord} :
    checkDataAddress addr = .error f ↔ addr = 65535#16 ∧ f = ⟨.memoryAddressOutOfRange, 65535#16⟩ := by
  by_cases h : addr = 65535#16
  · subst h; simp [checkDataAddress_error, eq_comm]
  · simp [checkDataAddress_ok h, h]

theorem memWrite_eq_ok {s t : State} {addr v : Word} :
    memWrite s addr v = .ok t ↔ addr ≠ 65535#16 ∧ t = s.setMem addr v := by
  by_cases h : addr = 65535#16
  · subst h; simp [memWrite_error]
  · simp [memWrite_ok v h, h, eq_comm]

theorem memWrite_eq_error {s : State} {addr v : Word} {f : FaultRecord} :
    memWrite s addr v = .error f ↔ addr = 65535#16 ∧ f = ⟨.memoryAddressOutOfRange, 65535#16⟩ := by
  by_cases h : addr = 65535#16
  · subst h; simp [memWrite_error, eq_comm]
  · simp [memWrite_ok v h, h]

/-- PUSH's address lies outside memory only when SP is 0. -/
theorem pushAddress_eq_last (s : State) : pushAddress s = 65535#16 ↔ s.sp = 0#16 := by
  have h := toNat_wrap16 ((s.sp.toNat : Int) - 1)
  have := s.sp.isLt
  rw [← BitVec.toNat_inj, ← BitVec.toNat_inj, pushAddress]
  simp only [BitVec.toNat_ofNat]; omega

/-! ### settle and the form RRR -/

@[simp] theorem settle_ok (s t : State) : settle s (.ok t) = .next t := rfl
@[simp] theorem settle_error (s : State) (f : FaultRecord) : settle s (.error f) = .next (s.raise f) := rfl

/-- A handler answers a next state: the one it computed or the fault taken from where it started. -/
theorem settle_cases (s : State) (r : Except FaultRecord State) :
    (∃ t, r = .ok t ∧ settle s r = .next t) ∨ (∃ f, r = .error f ∧ settle s r = .next (s.raise f)) := by
  cases r with
  | ok t => exact .inl ⟨t, rfl, rfl⟩
  | error f => exact .inr ⟨f, rfl, rfl⟩

theorem formRRR_toWord (f : Word → Word → Except FaultRecord Word) (ra rb rc : RegIndex) (s : State) :
    formRRR f ra.toWord rb.toWord rc.toWord s =
      (f (s.reg rb) (s.reg rc)).map fun v => s.setReg ra v := by
  simp only [formRRR, regIdx_toWord, bind, Except.bind]
  cases f (s.reg rb) (s.reg rc) <;> rfl

/-- Everything the form RRR can do: a register operand above 15 faults, `a` before `b` before `c`; else the result
function decides. -/
theorem formRRR_cases (f : Word → Word → Except FaultRecord Word) (a b c : Word) (s : State) :
    (∃ w, w ∈ [a, b, c] ∧ 16 ≤ w.toNat ∧ formRRR f a b c s = .error ⟨.registerIndexOutOfRange, w⟩) ∨
    (∃ ra rb rc : RegIndex, a = ra.toWord ∧ b = rb.toWord ∧ c = rc.toWord ∧
      formRRR f a b c s = (f (s.reg rb) (s.reg rc)).map fun v => s.setReg ra v) := by
  rcases regIdx_cases a with ⟨ra, rfl, ea⟩ | ⟨ha, ea⟩
  · rcases regIdx_cases b with ⟨rb, rfl, eb⟩ | ⟨hb, eb⟩
    · rcases regIdx_cases c with ⟨rc, rfl, ec⟩ | ⟨hc, ec⟩
      · exact .inr ⟨ra, rb, rc, rfl, rfl, rfl, formRRR_toWord f ra rb rc s⟩
      · exact .inl ⟨c, by simp, hc, by simp [formRRR, ec, bind, Except.bind]⟩
    · exact .inl ⟨b, by simp, hb, by simp [formRRR, eb, bind, Except.bind]⟩
  · exact .inl ⟨a, by simp, ha, by simp [formRRR, ea, bind, Except.bind]⟩

/-! ### The fetch and the step -/

theorem fetch_ok {s : State} (h : s.pc.toNat ≤ 65531) :
    fetch s = .ok ⟨Memory.read s.mem s.pc.toNat, Memory.read s.mem (s.pc.toNat + 1),
      Memory.read s.mem (s.pc.toNat + 2), Memory.read s.mem (s.pc.toNat + 3)⟩ := by
  simp [fetch, memRead4, windowInMemory_four, h]

theorem fetch_error {s : State} (h : 65532 ≤ s.pc.toNat) : fetch s = .error ⟨.fetchOutOfRange, s.pc⟩ := by
  have : ¬ s.pc.toNat ≤ 65531 := by omega
  simp [fetch, memRead4, windowInMemory_four, this]

theorem engineStep_of_running {s : State} (h : s.run = .running) : engineStep s = runningStep s := by
  simp [engineStep, h]

@[simp] theorem afterHandler_of_running {t : State} (h : t.run = .running) : afterHandler t = advancePc t := by
  simp [afterHandler, h]

@[simp] theorem afterHandler_of_not_running {t : State} (h : t.run ≠ .running) : afterHandler t = t := by
  unfold afterHandler; split <;> simp_all

end Sys2Proof.Machine
end

