-- ==== Sys2Proof/Laws/Exec.lean ====
section
/-! SUPPORT. What a handler can do, said once for all instructions, and the step of a running machine. -/

namespace Sys2Proof.Machine

/-- The ways a handler ends: a fault of a kind and info the table of R241 allows; the halt of an unmapped opcode;
registers only; or one memory word at the instruction's store address, with registers. -/
inductive ExecResult (i : Instr) (s : State) : State → Prop where
  | raised (f : FaultRecord) (hl : f.legal s.pc = true) (hc : f.cause ≠ .fetchOutOfRange) :
      ExecResult i s (s.raise f)
  | halted (hu : i.isUnmapped = true) : ExecResult i s s.halt
  | registers (hu : i.isUnmapped = false) (x : Vector Word 16) : ExecResult i s { s with x := x }
  | stored (hu : i.isUnmapped = false) (x : Vector Word 16) (addr v : Word) (ha : addr ≠ 65535#16)
      (hs : storeAddress i s = some addr) :
      ExecResult i s { s with x := x, mem := Memory.write s.mem addr.toNat v }

theorem legal_register {w pc : Word} (h : 16 ≤ w.toNat) :
    FaultRecord.legal ⟨.registerIndexOutOfRange, w⟩ pc = true := by
  simpa [FaultRecord.legal] using h

theorem legal_address {pc : Word} : FaultRecord.legal ⟨.memoryAddressOutOfRange, 65535#16⟩ pc = true := rfl

theorem legal_division {pc : Word} : FaultRecord.legal ⟨.divisionByZero, 0⟩ pc = true := rfl

theorem quotient_error {u v : Word} {g : FaultRecord} (h : quotient u v = .error g) : g = ⟨.divisionByZero, 0⟩ := by
  unfold quotient at h; split at h <;> simp_all

/-- A handler whose checks raise only faults of the table, and whose completed state is of one of the kinds. -/
theorem ExecResult.of_settle {i : Instr} {s : State} {r : Except FaultRecord State}
    (he : ∀ f, r = .error f → f.legal s.pc = true ∧ f.cause ≠ .fetchOutOfRange)
    (ho : ∀ t, r = .ok t → ExecResult i s t) : ∃ t, settle s r = .next t ∧ ExecResult i s t := by
  rcases settle_cases s r with ⟨t, e, h⟩ | ⟨f, e, h⟩
  · exact ⟨t, h, ho t e⟩
  · exact ⟨_, h, .raised f (he f e).1 (he f e).2⟩

theorem ExecResult.of_formRRR {i : Instr} {s : State} {f : Word → Word → Except FaultRecord Word} (a b c : Word)
    (hu : i.isUnmapped = false)
    (hf : ∀ u v g, f u v = .error g → g.legal s.pc = true ∧ g.cause ≠ .fetchOutOfRange) :
    ∃ t, settle s (formRRR f a b c s) = .next t ∧ ExecResult i s t := by
  refine ExecResult.of_settle (fun g h => ?_) fun t h => ?_
  · simp only [formRRR, bind_eq_error, regIdx_eq_error, pure_ne_error] at h
    rcases h with ⟨h, rfl⟩ | ⟨_, -, ⟨h, rfl⟩ | ⟨_, -, ⟨h, rfl⟩ | ⟨_, -, h | ⟨_, -, h⟩⟩⟩⟩
    · exact ⟨legal_register h, by simp⟩
    · exact ⟨legal_register h, by simp⟩
    · exact ⟨legal_register h, by simp⟩
    · exact hf _ _ g h
    · exact h.elim
  · simp only [formRRR, bind_eq_ok, pure_eq_ok] at h
    obtain ⟨ra, -, rb, -, rc, -, v, -, rfl⟩ := h
    exact .registers hu _

/-- Every handler answers a next state of one of the four kinds. -/
theorem exec_result (i : Instr) (s : State) : ∃ t, exec i s = .next t ∧ ExecResult i s t := by
  cases i with
  | add a b c => exact ExecResult.of_formRRR a b c rfl (by simp)
  | mul a b c => exact ExecResult.of_formRRR a b c rfl (by simp)
  | sub a b c => exact ExecResult.of_formRRR a b c rfl (by simp)
  | div a b c =>
    refine ExecResult.of_formRRR a b c rfl fun u v g h => ?_
    rw [quotient_error h]; exact ⟨legal_division, by simp⟩
  | equ a b c => exact ExecResult.of_formRRR a b c rfl (by simp)
  | inf a b c => exact ExecResult.of_formRRR a b c rfl (by simp)
  | infe a b c => exact ExecResult.of_formRRR a b c rfl (by simp)
  | sup a b c => exact ExecResult.of_formRRR a b c rfl (by simp)
  | supe a b c => exact ExecResult.of_formRRR a b c rfl (by simp)
  | cop a b c =>
    refine ExecResult.of_settle (fun f h => ?_) fun t h => ?_
    · simp only [bind_eq_error, regIdx_eq_error, pure_ne_error, and_false, exists_false, or_false] at h
      rcases h with ⟨h, rfl⟩ | ⟨_, -, h, rfl⟩ <;> exact ⟨legal_register h, by simp⟩
    · simp only [bind_eq_ok, pure_eq_ok] at h
      obtain ⟨ra, -, rb, -, rfl⟩ := h
      exact .registers rfl _
  | afc a b c =>
    refine ExecResult.of_settle (fun f h => ?_) fun t h => ?_
    · simp only [bind_eq_error, regIdx_eq_error, pure_ne_error, and_false, exists_false, or_false] at h
      obtain ⟨h, rfl⟩ := h
      exact ⟨legal_register h, by simp⟩
    · simp only [bind_eq_ok, pure_eq_ok] at h
      obtain ⟨ra, -, rfl⟩ := h
      exact .registers rfl _
  | load a b c =>
    refine ExecResult.of_settle (fun f h => ?_) fun t h => ?_
    · simp only [bind_eq_error, regIdx_eq_error, memRead_eq_error, pure_ne_error, and_false, exists_false,
        or_false] at h
      rcases h with ⟨h, rfl⟩ | ⟨_, -, -, rfl⟩
      · exact ⟨legal_register h, by simp⟩
      · exact ⟨legal_address, by simp⟩
    · simp only [bind_eq_ok, pure_eq_ok] at h
      obtain ⟨ra, -, v, -, rfl⟩ := h
      exact .registers rfl _
  | str a b c =>
    refine ExecResult.of_settle (fun f h => ?_) fun t h => ?_
    · simp only [bind_eq_error, regIdx_eq_error, memWrite_eq_error] at h
      rcases h with ⟨h, rfl⟩ | ⟨_, -, -, rfl⟩
      · exact ⟨legal_register h, by simp⟩
      · exact ⟨legal_address, by simp⟩
    · simp only [bind_eq_ok, memWrite_eq_ok] at h
      obtain ⟨rb, -, ha, rfl⟩ := h
      exact .stored rfl s.x a (s.reg rb) ha rfl
  | jmp a b c => exact ⟨_, rfl, .registers rfl _⟩
  | jmpc a b c =>
    refine ExecResult.of_settle (fun f h => ?_) fun t h => ?_
    · simp only [bind_eq_error, regIdx_eq_error, pure_ne_error, and_false, exists_false, or_false] at h
      obtain ⟨h, rfl⟩ := h
      exact ⟨legal_register h, by simp⟩
    · simp only [bind_eq_ok, pure_eq_ok] at h
      obtain ⟨rb, -, rfl⟩ := h
      split
      · exact .registers rfl _
      · exact .registers rfl s.x
  | pop a b c =>
    refine ExecResult.of_settle (fun f h => ?_) fun t h => ?_
    · simp only [bind_eq_error, regIdx_eq_error, memRead_eq_error, pure_ne_error, and_false, exists_false,
        or_false] at h
      rcases h with ⟨h, rfl⟩ | ⟨_, -, -, rfl⟩
      · exact ⟨legal_register h, by simp⟩
      · exact ⟨legal_address, by simp⟩
    · simp only [bind_eq_ok, pure_eq_ok] at h
      obtain ⟨ra, -, v, -, rfl⟩ := h
      exact .registers rfl _
  | push a b c =>
    refine ExecResult.of_settle (fun f h => ?_) fun t h => ?_
    · simp only [bind_eq_error, regIdx_eq_error, checkDataAddress_eq_error, memWrite_eq_error] at h
      rcases h with ⟨h, rfl⟩ | ⟨_, -, ⟨-, rfl⟩ | ⟨_, -, -, rfl⟩⟩
      · exact ⟨legal_register h, by simp⟩
      · exact ⟨legal_address, by simp⟩
      · exact ⟨legal_address, by simp⟩
    · simp only [bind_eq_ok, memWrite_eq_ok] at h
      obtain ⟨ra, -, _, -, ha, rfl⟩ := h
      exact .stored rfl _ (pushAddress s) _ ha rfl
  | unmapped op a b c => exact ⟨_, rfl, .halted rfl⟩

/-- The inversion form: whatever next state a handler answers is of one of the four kinds. -/
theorem exec_result_of_next {i : Instr} {s t : State} (h : exec i s = .next t) : ExecResult i s t := by
  obtain ⟨u, hu, hr⟩ := exec_result i s
  rw [hu] at h; cases h; exact hr

/-- The step of a running machine whose fetch succeeds. -/
theorem step_of_standsAt {s : State} {w : InstrWords} (h : standsAt s w) {u : State}
    (hu : exec (decode w) s = .next u) : step s = .next (afterHandler u) := by
  obtain ⟨hr, hp, hw⟩ := h
  have hf : fetch s = .ok w := by rw [fetch_ok hp, ← hw]; rfl
  simp [step, engineStep, hr, runningStep, hf, hu]

/-- The step of a running machine whose fetch leaves memory. -/
theorem step_of_fetch_error {s : State} (hr : s.run = .running) (hp : 65532 ≤ s.pc.toNat) :
    step s = .next (s.raise ⟨.fetchOutOfRange, s.pc⟩) := by
  simp [step, engineStep, hr, runningStep, fetch_error hp]

/-- Everything a step that answers a next state can be: the machine was RUNNING, and either the fetch faulted or the
handler of the fetched words ran. -/
theorem step_cases {s t : State} (h : step s = .next t) : s.run = .running ∧
    ((65532 ≤ s.pc.toNat ∧ t = s.raise ⟨.fetchOutOfRange, s.pc⟩) ∨
     (s.pc.toNat ≤ 65531 ∧ ∃ u, exec (decode (wordsAt s)) s = .next u ∧
       ExecResult (decode (wordsAt s)) s u ∧ t = afterHandler u)) := by
  have hr : s.run = .running := by
    unfold step engineStep at h; split at h
    · assumption
    · cases h
    · cases h
  refine ⟨hr, ?_⟩
  by_cases hp : s.pc.toNat ≤ 65531
  · obtain ⟨u, hu, hres⟩ := exec_result (decode (wordsAt s)) s
    rw [step_of_standsAt ⟨hr, hp, rfl⟩ hu] at h
    cases h
    exact .inr ⟨hp, u, hu, hres, rfl⟩
  · have hp' : 65532 ≤ s.pc.toNat := by omega
    rw [step_of_fetch_error hr hp'] at h
    cases h
    exact .inl ⟨hp', rfl⟩

end Sys2Proof.Machine
end

