-- ==== Sys2Proof/Laws/PerInstr.lean ====
section
/-! SUPPORT. A fact of each instruction as syntax, one lemma per constructor: the opcode word of its encoding has a
handler exactly when the instruction is not the halt (spec/30_encoding.md R88, R90). -/

namespace Sys2Proof.Laws.OpcodeRange

/-- The encoding of a well-formed instruction has an opcode of the range 0x0001 to 0x0011 exactly when the
instruction is one of the seventeen. -/
def Statement (i : Instr) : Prop := i.wellFormed = true → hasHandler (encode i).op = !i.isUnmapped

theorem add (a b c : Word) : Statement (.add a b c) := fun _ => rfl
theorem mul (a b c : Word) : Statement (.mul a b c) := fun _ => rfl
theorem sub (a b c : Word) : Statement (.sub a b c) := fun _ => rfl
theorem div (a b c : Word) : Statement (.div a b c) := fun _ => rfl
theorem cop (a b c : Word) : Statement (.cop a b c) := fun _ => rfl
theorem afc (a b c : Word) : Statement (.afc a b c) := fun _ => rfl
theorem load (a b c : Word) : Statement (.load a b c) := fun _ => rfl
theorem str (a b c : Word) : Statement (.str a b c) := fun _ => rfl
theorem equ (a b c : Word) : Statement (.equ a b c) := fun _ => rfl
theorem inf (a b c : Word) : Statement (.inf a b c) := fun _ => rfl
theorem infe (a b c : Word) : Statement (.infe a b c) := fun _ => rfl
theorem sup (a b c : Word) : Statement (.sup a b c) := fun _ => rfl
theorem supe (a b c : Word) : Statement (.supe a b c) := fun _ => rfl
theorem jmp (a b c : Word) : Statement (.jmp a b c) := fun _ => rfl
theorem jmpc (a b c : Word) : Statement (.jmpc a b c) := fun _ => rfl
theorem pop (a b c : Word) : Statement (.pop a b c) := fun _ => rfl
theorem push (a b c : Word) : Statement (.push a b c) := fun _ => rfl
theorem unmapped (op a b c : Word) : Statement (.unmapped op a b c) := fun h => by
  simpa [Instr.wellFormed, Instr.isUnmapped, encode] using h

end Sys2Proof.Laws.OpcodeRange
end

