-- ==== Sys2Proof/Tests/Slice0.lean ====
section
/-! SUPPORT. Tests: well-formedness, decoding of words written out from the spec's encodings, the vectors of
spec/95_test_vectors.md one step each (their ids stand in the names' comments), and for every statement with hypotheses a
state and operands that meet them. -/

namespace Sys2Proof.Tests

open Sys2Proof.Machine

/-- A RUNNING state with an instruction's words at a PC, some registers and some memory words set. -/
def start (pc : Word) (w : InstrWords) (regs : List (RegIndex × Word)) (mem : List (Nat × Word)) : State :=
  let s := regs.foldl (fun s r => s.setReg r.1 r.2) (State.reset.setReg 15 pc)
  { s with mem := mem.foldl (fun m c => Memory.write m c.1 c.2) (placeWords [] pc.toNat w) }

/-- The next state of an outcome. -/
def nextOf : Host.Outcome State Fault Refusal → Option State
  | .next t => some t
  | .fault _ => none
  | .refused _ => none

/-- After one step: a register, the PC, the run state and the record. -/
def seen (s : State) (r : RegIndex) : Option (Word × Word × RunState × Option FaultRecord) :=
  (nextOf (step s)).map fun t => (t.reg r, t.pc, t.run, t.fault)

/-- After one step: a memory word and SP. -/
def stored (s : State) (n : Nat) : Option (Word × Word) :=
  (nextOf (step s)).map fun t => (Memory.read t.mem n, t.sp)

/-! ### Well-formedness: the one check -/

theorem test_wellFormed_refuses_first_handled_opcode : (Instr.unmapped 0x0001 0 0 0).wellFormed = false := by decide
theorem test_wellFormed_refuses_last_handled_opcode : (Instr.unmapped 0x0011 0 0 0).wellFormed = false := by decide
theorem test_wellFormed_unmapped_zero : (Instr.unmapped 0x0000 0 0 0).wellFormed = true := by decide
theorem test_wellFormed_unmapped_above : (Instr.unmapped 0x0012 0 0 0).wellFormed = true := by decide

/-! ### Decoding: one word list per constructor, from R88 and the examples of each rule -/

theorem test_decode_arithmetic : decode ⟨0x0001, 2, 0, 1⟩ = .add 2 0 1 ∧ decode ⟨0x0002, 2, 0, 1⟩ = .mul 2 0 1 ∧
    decode ⟨0x0003, 0, 0, 2⟩ = .sub 0 0 2 ∧ decode ⟨0x0004, 2, 0, 1⟩ = .div 2 0 1 := by decide
theorem test_decode_transfer : decode ⟨0x0005, 3, 0, 0⟩ = .cop 3 0 0 ∧ decode ⟨0x0006, 0, 5, 0⟩ = .afc 0 5 0 ∧
    decode ⟨0x0007, 3, 100, 0⟩ = .load 3 100 0 ∧ decode ⟨0x0008, 100, 2, 0⟩ = .str 100 2 0 := by decide
theorem test_decode_compare : decode ⟨0x0009, 2, 0, 1⟩ = .equ 2 0 1 ∧ decode ⟨0x000A, 2, 0, 1⟩ = .inf 2 0 1 ∧
    decode ⟨0x000B, 2, 0, 1⟩ = .infe 2 0 1 ∧ decode ⟨0x000C, 2, 0, 1⟩ = .sup 2 0 1 ∧
    decode ⟨0x000D, 2, 0, 1⟩ = .supe 2 0 1 := by decide
theorem test_decode_control : decode ⟨0x000E, 12, 0, 0⟩ = .jmp 12 0 0 ∧ decode ⟨0x000F, 0, 3, 0⟩ = .jmpc 0 3 0 := by
  decide
theorem test_decode_stack : decode ⟨0x0010, 1, 0, 0⟩ = .pop 1 0 0 ∧ decode ⟨0x0011, 0, 0, 0⟩ = .push 0 0 0 := by decide
theorem test_decode_unmapped : decode ⟨0x0000, 99, 98, 97⟩ = .unmapped 0 99 98 97 ∧
    decode ⟨0x0012, 0, 0, 0⟩ = .unmapped 0x0012 0 0 0 ∧ decode ⟨0xFFFF, 0, 0, 0⟩ = .unmapped 0xFFFF 0 0 0 := by decide
theorem test_decodeWords_truncated : decodeWords [0x0001, 2, 0] = .error (.truncated 3) := by rfl
theorem test_encodeProgram_scenario1 : encodeProgram [.afc 0 5 0, .afc 1 3 0, .add 2 0 1] =
    [0x0006, 0, 5, 0, 0x0006, 1, 3, 0, 0x0001, 2, 0, 1] := by decide

/-! The model's numbering of an instruction as one number (log 18): bit 0 is the least significant bit of the first word. -/

theorem test_decodeTableWord_add : decodeTableWord 64 0x0001000000020001 = some (.add 2 0 1) := by decide
theorem test_decodeTableWord_short : decodeTableWord 16 0x0011 = some (.push 0 0 0) := by decide
theorem test_withFetchWord_runs : seen (State.reset.withFetchWord 64 0x0000FFFF00000006) 0 =
    some (0xFFFF, 4, .running, none) := by decide

/-! ### One step of each instruction (spec/95_test_vectors.md, part 2) -/

-- V-ARITH-1, V-ARITH-3
theorem test_add_wraps : seen (start 0 ⟨1, 2, 0, 1⟩ [(0, 0xFFFF), (1, 1), (2, 9)] []) 2 =
    some (0, 4, .running, none) := by decide
theorem test_add_same_register : seen (start 0 ⟨1, 1, 1, 1⟩ [(1, 0x4000)] []) 1 =
    some (0x8000, 4, .running, none) := by decide
-- V-ARITH-6
theorem test_mul_low_half : seen (start 0 ⟨2, 2, 0, 1⟩ [(0, 300), (1, 300)] []) 2 =
    some (0x5F90, 4, .running, none) := by decide
-- V-ARITH-10
theorem test_sub_borrows : seen (start 0 ⟨3, 2, 0, 1⟩ [(0, 3), (1, 5)] []) 2 =
    some (0xFFFE, 4, .running, none) := by decide
-- V-ARITH-17, V-ARITH-20
theorem test_div_unsigned : seen (start 0 ⟨4, 2, 0, 1⟩ [(0, 0x8000), (1, 0xFFFF), (2, 9)] []) 2 =
    some (0, 4, .running, none) := by decide
theorem test_div_by_zero : seen (start 0 ⟨4, 2, 0, 1⟩ [(0, 5), (1, 0), (2, 9)] []) 2 =
    some (9, 0, .fatal, some ⟨.divisionByZero, 0⟩) := by decide
-- V-DATA-7, V-DATA-8
theorem test_cop_to_pc : seen (start 8 ⟨5, 15, 0, 0⟩ [(0, 200)] []) 0 = some (200, 204, .running, none) := by decide
theorem test_cop_from_pc : seen (start 40 ⟨5, 0, 15, 0⟩ [] []) 0 = some (40, 44, .running, none) := by decide
-- V-DATA-4, V-DATA-5
theorem test_afc_ignores_c : seen (start 0 ⟨6, 0, 5, 500⟩ [] []) 0 = some (5, 4, .running, none) := by decide
theorem test_afc_bad_index : seen (start 0 ⟨6, 16, 5, 0⟩ [] []) 0 =
    some (0, 0, .fatal, some ⟨.registerIndexOutOfRange, 16⟩) := by decide
-- V-DATA-13, V-DATA-11
theorem test_load_address_is_no_register : seen (start 0 ⟨7, 0, 3, 0⟩ [(3, 50)] [(50, 99)]) 0 =
    some (0, 4, .running, none) := by decide
theorem test_load_outside : seen (start 0 ⟨7, 0, 65535, 0⟩ [] []) 0 =
    some (0, 0, .fatal, some ⟨.memoryAddressOutOfRange, 65535⟩) := by decide
-- V-DATA-14, V-DATA-16
theorem test_str_last_word : stored (start 0 ⟨8, 65534, 1, 0⟩ [(1, 0xCAFE)] []) 65534 =
    some (0xCAFE, 65535) := by decide
theorem test_str_over_itself_completes : seen (start 0 ⟨8, 0, 1, 0⟩ [(1, 0)] []) 1 =
    some (0, 4, .running, none) := by decide
-- V-CMP-4 and V-CMP-1
theorem test_equ_equal : seen (start 0 ⟨9, 2, 0, 1⟩ [(0, 5), (1, 5), (2, 0x1234)] []) 2 =
    some (1, 4, .running, none) := by decide
theorem test_inf_unsigned : seen (start 0 ⟨10, 2, 0, 1⟩ [(0, 0xFFFF), (1, 1), (2, 0x1234)] []) 2 =
    some (0, 4, .running, none) := by decide
theorem test_infe_equal : seen (start 0 ⟨11, 2, 0, 1⟩ [(0, 5), (1, 5), (2, 0x1234)] []) 2 =
    some (1, 4, .running, none) := by decide
theorem test_sup_unsigned : seen (start 0 ⟨12, 2, 0, 1⟩ [(0, 0xFFFF), (1, 1), (2, 0x1234)] []) 2 =
    some (1, 4, .running, none) := by decide
theorem test_supe_unsigned : seen (start 0 ⟨13, 2, 0, 1⟩ [(0, 1), (1, 0xFFFF), (2, 0x1234)] []) 2 =
    some (0, 4, .running, none) := by decide
-- V-CTRL-1: the hook sees 65532
theorem test_jmp_zero : seen (start 8 ⟨14, 0, 0, 0⟩ [] []) 0 = some (0, 0, .running, none) := by decide
theorem test_jmp_hook : (observe (start 8 ⟨14, 0, 0, 0⟩ [] [])).map State.pc = some 65532 := by decide
-- V-CTRL-6, V-CTRL-7
theorem test_jmpc_taken : seen (start 4 ⟨15, 40, 3, 0⟩ [(3, 0)] []) 3 = some (0, 40, .running, none) := by decide
theorem test_jmpc_not_taken : seen (start 4 ⟨15, 40, 3, 0⟩ [(3, 1)] []) 3 = some (1, 8, .running, none) := by decide
-- V-STACK-8, V-STACK-10
theorem test_pop_sp : seen (start 0 ⟨16, 14, 0, 0⟩ [(14, 65534)] [(65534, 1000)]) 14 =
    some (1001, 4, .running, none) := by decide
theorem test_pop_pc : seen (start 8 ⟨16, 15, 0, 0⟩ [(14, 65534)] [(65534, 96)]) 14 =
    some (65535, 100, .running, none) := by decide
-- V-STACK-6, V-STACK-4
theorem test_push_sp : stored (start 0 ⟨17, 14, 0, 0⟩ [] []) 65534 = some (65534, 65534) := by decide
theorem test_push_at_zero : seen (start 8 ⟨17, 0, 0, 0⟩ [(14, 0), (0, 42)] []) 14 =
    some (0, 8, .fatal, some ⟨.memoryAddressOutOfRange, 65535⟩) := by decide
-- V-HALT-4, V-HALT-6, V-FETCH-1
theorem test_halt_high_byte : seen (start 8 ⟨0x0101, 2, 0, 1⟩ [(0, 1), (1, 1)] []) 2 =
    some (0, 8, .halted, none) := by decide
theorem test_halt_highest_fetch : seen (State.reset.setReg 15 65531) 15 = some (65531, 65531, .halted, none) := by decide
theorem test_fetch_outside : seen (State.reset.setReg 15 65532) 15 =
    some (65532, 65532, .fatal, some ⟨.fetchOutOfRange, 65532⟩) := by decide
-- R72, R71: bytes of an image; V-HALT-5
theorem test_image_bytes : Image.ofBytes .littleEndian [0x06, 0x00, 0xFF, 0x01] = some [0x0006, 0x01FF] ∧
    Image.ofBytes .bigEndian [0x00, 0x06, 0x01, 0xFF] = some [0x0006, 0x01FF] ∧
    Image.ofBytes .littleEndian [1, 2, 3] = none := by decide
theorem test_empty_image_halts : (finalState 1 State.reset).map (fun t => (t.pc, t.status)) =
    some (0, .halted, none) := by decide

/-! ### Witnesses: for each statement with hypotheses, a case that meets them all, one per clause -/

/-- DecodeAfterEncodeIsIdentity; OpcodeMatchIsOnTheWholeWord at both ends of the mapped range. -/
theorem witness_wellFormed : (Instr.unmapped 0x0012 1 2 3).wellFormed = true ∧
    (decode ⟨0x0000, 1, 2, 3⟩).isUnmapped = true ∧ (decode ⟨0x0012, 1, 2, 3⟩).isUnmapped = true ∧
    (decode ⟨0x0001, 1, 2, 3⟩).isUnmapped = false ∧ (decode ⟨0x0011, 1, 2, 3⟩).isUnmapped = false := by decide

/-- MemReadReturnsWordsOrFaults, MemWriteChangesOneWord: the boundary addresses of each clause. -/
theorem witness_addresses : (65534#16).toNat ≤ 65534 ∧ 65534 < (65535#16).toNat ∧ (65531#16).toNat + 3 ≤ 65534 ∧
    65534 < (65532#16).toNat + 3 := by decide

/-- AddWritesSum, MulWritesLowProduct, SubWritesDifference, DivWritesQuotientOrFaults, CopCopiesRegister,
ComparisonsWriteTruth: a first bad index in each position, with a later bad one after it. -/
theorem witness_firstBadIndex : firstBadIndex [16, 17, 18] = some 16 ∧ firstBadIndex [15, 17, 18] = some 17 ∧
    firstBadIndex [15, 0, 65535] = some 65535 ∧ firstBadIndex [15, 16] = some 16 ∧ firstBadIndex [15, 15, 15] = none := by
  decide

/-- DivWritesQuotientOrFaults: a divisor that is not zero, and one that is. -/
theorem witness_divisor : (State.reset.setReg 1 1).reg 1 ≠ 0#16 ∧ State.reset.reg 1 = 0#16 := by decide

/-- AfcLoadsImmediate, LoadReadsMemoryWord, StrWritesMemoryWord, JmpcJumpsOnZero, PopReadsAndIncrements,
PushDecrementsAndWrites: the least word that is no index, and the last valid address. -/
theorem witness_operands : 16 ≤ (16#16).toNat ∧ 65534#16 ≠ 65535#16 := by decide

/-- JmpReachesTarget and JmpcJumpsOnZero: the jumps stand at the PC; the condition register is zero and is not. -/
theorem witness_jumps : standsAt (start 8 ⟨0x000E, 3, 7, 7⟩ [] []) ⟨0x000E, 3, 7, 7⟩ ∧
    standsAt (start 8 ⟨0x000F, 40, RegIndex.toWord 3, 0⟩ [] []) ⟨0x000F, 40, RegIndex.toWord 3, 0⟩ ∧
    (start 8 ⟨0x000F, 40, RegIndex.toWord 3, 0⟩ [] []).reg 3 = 0#16 ∧
    standsAt (start 8 ⟨0x000F, 40, RegIndex.toWord 3, 0⟩ [(3, 1)] []) ⟨0x000F, 40, RegIndex.toWord 3, 0⟩ ∧
    (start 8 ⟨0x000F, 40, RegIndex.toWord 3, 0⟩ [(3, 1)] []).reg 3 ≠ 0#16 := by decide

/-- PopReadsAndIncrements and PushDecrementsAndWrites: SP at the ends of each clause's range. -/
theorem witness_sp : (State.reset.setReg 14 65534).reg 14 ≠ 65535#16 ∧ State.reset.reg 14 = 65535#16 ∧
    (State.reset.setReg 14 1).reg 14 ≠ 0#16 ∧ (State.reset.setReg 14 0).reg 14 = 0#16 ∧
    (1 : RegIndex) ≠ 14 := by decide

/-- RegisterResultFrame, JumpFrame, PopFrame, StoreFrame: handlers that answer a next state, and the store address. -/
theorem witness_frames :
    (∃ t, exec (.add 2 0 1) State.reset = .next t) ∧ (∃ t, exec (.load 2 7 0) State.reset = .next t) ∧
    (∃ t, exec (.jmpc 4 0 0) State.reset = .next t) ∧
    (∃ t, exec (.pop 1 0 0) (State.reset.setReg 14 65534) = .next t) ∧
    (∃ t, exec (.str 65534 1 0) State.reset = .next t) ∧ (∃ t, exec (.push 1 0 0) State.reset = .next t) ∧
    storeAddress (.str 65534 1 0) State.reset = some 65534 ∧ storeAddress (.push 1 0 0) State.reset = some 65534 :=
  ⟨⟨_, rfl⟩, ⟨_, rfl⟩, ⟨_, rfl⟩, ⟨_, rfl⟩, ⟨_, rfl⟩, ⟨_, rfl⟩, by decide, by decide⟩

/-- HandlersFaultAsTheTableSays: each cause, the priorities, and no fault. -/
theorem witness_tableFault :
    tableFault (.div 16 0 1) State.reset = some ⟨.registerIndexOutOfRange, 16⟩ ∧
    tableFault (.div 2 0 1) State.reset = some ⟨.divisionByZero, 0⟩ ∧
    tableFault (.pop 16 0 0) State.reset = some ⟨.registerIndexOutOfRange, 16⟩ ∧
    tableFault (.pop 1 0 0) State.reset = some ⟨.memoryAddressOutOfRange, 65535⟩ ∧
    tableFault (.jmp 500 16 16) State.reset = none ∧ tableFault (.unmapped 0 99 99 99) State.reset = none := by decide

/-- StepEndsAsTheRunStateTableSays: a fault, the halt, and a completed instruction; FetchOutsideMemoryFaults. -/
theorem witness_stepFault : State.reset.run = .running ∧
    stepFault (State.reset.setReg 15 65532) = some ⟨.fetchOutOfRange, 65532⟩ ∧
    65531 < (State.reset.setReg 15 65532).pc.toNat ∧
    stepFault State.reset = none ∧ (decode (wordsAt State.reset)).isUnmapped = true ∧
    stepFault (start 0 ⟨6, 0, 5, 0⟩ [] []) = none ∧
    (decode (wordsAt (start 0 ⟨6, 0, 5, 0⟩ [] []))).isUnmapped = false := by decide

/-- FaultsArePrecise and the last clause of HookSeesEveryCompletedInstruction. -/
theorem witness_fault_step : ∃ t, step (State.reset.setReg 15 65535) = .next t ∧ t.run = .fatal :=
  ⟨_, rfl, rfl⟩

/-- StepRunsDecodedInstruction: a handler that completes and one that does not; HookSeesEveryCompletedInstruction. -/
theorem witness_step_runs : standsAt (start 0 ⟨6, 0, 5, 0⟩ [] []) ⟨6, 0, 5, 0⟩ ∧
    (∃ u, exec (decode ⟨6, 0, 5, 0⟩) (start 0 ⟨6, 0, 5, 0⟩ [] []) = .next u ∧ u.run = .running) ∧
    standsAt State.reset ⟨0, 0, 0, 0⟩ ∧
    (∃ u, exec (decode ⟨0, 0, 0, 0⟩) State.reset = .next u ∧ u.run ≠ .running) ∧
    (∃ u, observe (start 0 ⟨6, 0, 5, 0⟩ [] []) = some u) ∧
    (∃ t, step (start 0 ⟨6, 0, 5, 0⟩ [] []) = .next t ∧ t.run = .running) :=
  ⟨by decide, ⟨_, rfl, by decide⟩, by decide, ⟨_, rfl, by decide⟩, ⟨_, rfl⟩, ⟨_, rfl, by decide⟩⟩

/-- UnmappedOpcodeStepHalts at both ends of the unmapped values. -/
theorem witness_unmapped : standsAt State.reset ⟨0, 0, 0, 0⟩ ∧ (0#16).toNat = 0 ∧
    standsAt (start 65531 ⟨0x0012, 1, 2, 3⟩ [] []) ⟨0x0012, 1, 2, 3⟩ ∧ 18 ≤ (0x0012#16).toNat := by decide

/-- TerminalStatesTakeNoStep. -/
theorem witness_terminal : State.reset.halt.run = .halted ∧
    (State.reset.raise ⟨.divisionByZero, 0⟩).run = .fatal ∧ State.reset.halt.run ≠ .running := by decide

/-- PcAdvancesByFour, at the highest address an instruction can be fetched from. -/
theorem witness_pc_advance : standsAt (start 65531 ⟨5, 14, 15, 0⟩ [] []) ⟨5, 14, 15, 0⟩ ∧
    (∃ t, step (start 65531 ⟨5, 14, 15, 0⟩ [] []) = .next t ∧ t.run = .running) ∧
    (∀ a b c, decode ⟨5, 14, 15, 0⟩ ≠ .jmp a b c ∧ decode ⟨5, 14, 15, 0⟩ ≠ .jmpc a b c) ∧
    ¬ ((roles (decode ⟨5, 14, 15, 0⟩)).1 = .destReg ∧ (operands (decode ⟨5, 14, 15, 0⟩)).1 = 15) :=
  ⟨by decide, ⟨_, rfl, by decide⟩, fun _ _ _ => ⟨nofun, nofun⟩, by decide⟩

/-- WritingThePcTransfersControl, clause by clause; of the comparisons the first and the last opcode. -/
theorem witness_pc_writes : standsAt (start 8 ⟨0x0006, 15, 96, 0⟩ [] []) ⟨0x0006, 15, 96, 0⟩ ∧
    standsAt (start 8 ⟨0x0005, 15, RegIndex.toWord 0, 0⟩ [] []) ⟨0x0005, 15, RegIndex.toWord 0, 0⟩ ∧
    standsAt (start 8 ⟨0x0007, 15, 65534, 0⟩ [] []) ⟨0x0007, 15, 65534, 0⟩ ∧
    standsAt (start 8 ⟨0x0010, 15, 0, 0⟩ [(14, 65534)] []) ⟨0x0010, 15, 0, 0⟩ ∧
    (start 8 ⟨0x0010, 15, 0, 0⟩ [(14, 65534)] []).sp ≠ 65535#16 ∧
    standsAt (start 8 ⟨0x0001, 15, RegIndex.toWord 15, RegIndex.toWord 0⟩ [] [])
      ⟨0x0001, 15, RegIndex.toWord 15, RegIndex.toWord 0⟩ ∧
    standsAt (start 8 ⟨0x0009, 15, RegIndex.toWord 15, RegIndex.toWord 0⟩ [] [])
      ⟨0x0009, 15, RegIndex.toWord 15, RegIndex.toWord 0⟩ ∧
    standsAt (start 8 ⟨0x000D, 15, RegIndex.toWord 15, RegIndex.toWord 0⟩ [] [])
      ⟨0x000D, 15, RegIndex.toWord 15, RegIndex.toWord 0⟩ := by decide

/-- WritingThePcTransfersControl and ReadingThePcGivesOwnAddress: a subtraction that borrows, and a DIV by its own
address, which is not zero; both also write register 15. -/
theorem witness_instrsRRR :
    (let i := Instr.sub 15 (RegIndex.toWord 15) (RegIndex.toWord 0)
      let s := start 8 (encode i) [(0, 9)] []
      i ∈ instrsRRR (RegIndex.toWord 15) (RegIndex.toWord 15) (RegIndex.toWord 0) ∧ standsAt s (encode i) ∧
      resultRRR i s.pc (s.reg 0) = some 65535 ∧ (nextOf (step s)).map State.pc = some 3) ∧
    (let i := Instr.div 15 (RegIndex.toWord 0) (RegIndex.toWord 15)
      let s := start 8 (encode i) [(0, 80)] []
      i ∈ instrsRRR (RegIndex.toWord 15) (RegIndex.toWord 0) (RegIndex.toWord 15) ∧ standsAt s (encode i) ∧
      resultRRR i (s.reg 0) s.pc = some 10 ∧ (nextOf (step s)).map State.pc = some 14) := by decide

/-- ReadingThePcGivesOwnAddress, the other clauses: COP, DIV at address 0, STR, PUSH, JMPC at address 0 and not. -/
theorem witness_pc_reads : standsAt (start 40 ⟨0x0005, RegIndex.toWord 0, 15, 0⟩ [] []) ⟨0x0005, RegIndex.toWord 0, 15, 0⟩ ∧
    standsAt (start 0 ⟨0x0004, RegIndex.toWord 0, RegIndex.toWord 1, 15⟩ [] [])
      ⟨0x0004, RegIndex.toWord 0, RegIndex.toWord 1, 15⟩ ∧
    (start 0 ⟨0x0004, RegIndex.toWord 0, RegIndex.toWord 1, 15⟩ [] []).pc = 0#16 ∧
    standsAt (start 40 ⟨0x0008, 65534, 15, 0⟩ [] []) ⟨0x0008, 65534, 15, 0⟩ ∧
    standsAt (start 40 ⟨0x0011, 15, 0, 0⟩ [(14, 1)] []) ⟨0x0011, 15, 0, 0⟩ ∧
    (start 40 ⟨0x0011, 15, 0, 0⟩ [(14, 1)] []).sp ≠ 0#16 ∧
    standsAt (start 0 ⟨0x000F, 40, 15, 0⟩ [] []) ⟨0x000F, 40, 15, 0⟩ ∧
    standsAt (start 8 ⟨0x000F, 40, 15, 0⟩ [] []) ⟨0x000F, 40, 15, 0⟩ := by decide

/-- OnlyStrAndPushChangeMemory: a step of each kind that changes a memory word. -/
theorem witness_memory_changes : (∃ t, step (start 0 ⟨17, 0, 0, 0⟩ [(0, 42)] []) = .next t ∧
    Memory.read t.mem 65534 ≠ Memory.read (start 0 ⟨17, 0, 0, 0⟩ [(0, 42)] []).mem 65534) ∧
    (∃ t, step (start 0 ⟨8, 0, 1, 0⟩ [] []) = .next t ∧
      Memory.read t.mem 0 ≠ Memory.read (start 0 ⟨8, 0, 1, 0⟩ [] []).mem 0) :=
  ⟨⟨_, rfl, by decide⟩, ⟨_, rfl, by decide⟩⟩

/-- An STR at address 0 that stores register 0, which holds 1, to an address. -/
def strAt (a : Word) : State := start 0 ⟨0x0008, a, RegIndex.toWord 0, 0⟩ [(0, 1)] []

/-- StoreIsSeenByTheNextFetch: an STR over each of the four words of the next instruction; the last clause with them. -/
theorem witness_store_seen :
    (standsAt (strAt 4) ⟨0x0008, 4, RegIndex.toWord 0, 0⟩ ∧ (4 : Word) ≠ 65535#16 ∧
      ∃ t w, step (strAt 4) = .next t ∧ fetch t = .ok w ∧ (4#16).toNat = t.pc.toNat ∧ w.op = 1) ∧
    (standsAt (strAt 5) ⟨0x0008, 5, RegIndex.toWord 0, 0⟩ ∧
      ∃ t w, step (strAt 5) = .next t ∧ fetch t = .ok w ∧ (5#16).toNat = t.pc.toNat + 1 ∧ w.a = 1) ∧
    (standsAt (strAt 6) ⟨0x0008, 6, RegIndex.toWord 0, 0⟩ ∧
      ∃ t w, step (strAt 6) = .next t ∧ fetch t = .ok w ∧ (6#16).toNat = t.pc.toNat + 2 ∧ w.b = 1) ∧
    (standsAt (strAt 7) ⟨0x0008, 7, RegIndex.toWord 0, 0⟩ ∧
      ∃ t w, step (strAt 7) = .next t ∧ fetch t = .ok w ∧ (7#16).toNat = t.pc.toNat + 3 ∧ w.c = 1) :=
  ⟨⟨by decide, by decide, _, _, rfl, rfl, by decide, by decide⟩, ⟨by decide, _, _, rfl, rfl, by decide, by decide⟩,
    ⟨by decide, _, _, rfl, rfl, by decide, by decide⟩, ⟨by decide, _, _, rfl, rfl, by decide, by decide⟩⟩

/-- A PUSH of a register at address 0, with SP at `sp`. -/
def pushAt (sp : Word) (r : RegIndex) : State := start 0 ⟨0x0011, r.toWord, 0, 0⟩ [(0, 1), (14, sp)] []

/-- StoreIsSeenByTheNextFetch: a PUSH over the first and the last word of the next instruction, and PUSH R14. -/
theorem witness_push_seen :
    (standsAt (pushAt 5 0) ⟨0x0011, RegIndex.toWord 0, 0, 0⟩ ∧ (pushAt 5 0).sp ≠ 0#16 ∧
      ∃ t w, step (pushAt 5 0) = .next t ∧ fetch t = .ok w ∧ (pushAt 5 0).sp.toNat - 1 = t.pc.toNat ∧ w.op = 1) ∧
    (standsAt (pushAt 8 14) ⟨0x0011, RegIndex.toWord 14, 0, 0⟩ ∧ (pushAt 8 14).sp ≠ 0#16 ∧
      ∃ t w, step (pushAt 8 14) = .next t ∧ fetch t = .ok w ∧ (pushAt 8 14).sp.toNat - 1 = t.pc.toNat + 3 ∧ w.c = 7) :=
  ⟨⟨by decide, by decide, _, _, rfl, rfl, by decide, by decide⟩,
    ⟨by decide, by decide, _, _, rfl, rfl, by decide, by decide⟩⟩

/-- InvariantHoldsAfterReset, EveryStepKeepsTheInvariant, EveryEndExplainsItself. -/
theorem witness_invariant : State.reset.Inv ∧ (∃ t, step State.reset = .next t ∧ t.run ≠ .running) ∧
    (∃ s, State.resetWith [6, 0, 5, 0] = some s ∧ s.Inv) :=
  ⟨by decide, ⟨_, rfl, by decide⟩, ⟨_, rfl, by decide⟩⟩

/-- ResetLoadsTheImage: an image that fits, and that there is one too long. -/
theorem witness_images : ([6, 0, 5, 0] : List Word).length ≤ 65535 ∧
    65535 < (List.replicate 65536 (0 : Word)).length := by
  refine ⟨by decide, ?_⟩
  rw [List.length_replicate]; decide

/-- ImageWordsAreBytePairs. -/
theorem witness_byte_lengths : ([1, 2, 3] : List Byte).length % 2 = 1 ∧ ([1, 2] : List Byte).length % 2 = 0 := by decide

/-- FinalStateIsFinal: a run that ends within its fuel, and one that does not. -/
theorem witness_final : (finalState 1 State.reset).isSome = true ∧
    finalState 1 (start 0 ⟨6, 0, 5, 0⟩ [] []) = none := by decide

/-- AddThenSubRestores: two steps whose instructions stand one after the other. -/
theorem witness_add_sub :
    let s := start 0 ⟨0x0001, RegIndex.toWord 2, RegIndex.toWord 0, RegIndex.toWord 1⟩ [(0, 0xFFF0), (1, 0x20)]
      [(4, 3), (5, 2), (6, 2), (7, 1)]
    standsAt s ⟨0x0001, RegIndex.toWord 2, RegIndex.toWord 0, RegIndex.toWord 1⟩ ∧
    ∃ t u, step s = .next t ∧ standsAt t ⟨0x0003, RegIndex.toWord 2, RegIndex.toWord 2, RegIndex.toWord 1⟩ ∧
      step t = .next u ∧ u.reg 2 = 0xFFF0 :=
  ⟨by decide, _, _, rfl, by decide, rfl, by decide⟩

/-- PushThenPopRestores: the same, at the reset value of SP. -/
theorem witness_push_pop :
    let s := start 0 ⟨0x0011, RegIndex.toWord 0, 0, 0⟩ [(0, 42)] [(4, 16), (5, 1)]
    s.sp ≠ 0#16 ∧ standsAt s ⟨0x0011, RegIndex.toWord 0, 0, 0⟩ ∧
    ∃ t u, step s = .next t ∧ standsAt t ⟨0x0010, RegIndex.toWord 1, 0, 0⟩ ∧ step t = .next u ∧ u.reg 1 = 42 :=
  ⟨by decide, by decide, _, _, rfl, by decide, rfl, by decide⟩

end Sys2Proof.Tests
end

/-! SUPPORT. The state family: what each group of handlers can leave, the frames read off from that, and the invariant
of the machine's states at reset and across a step. -/

namespace Sys2Proof.Machine

/-! ### What a group of handlers can leave -/

/-- A settled handler left the state it computed, or the fault taken from where it started. -/
theorem settle_eq_next {s t : State} {r : Except FaultRecord State} (h : settle s r = .next t) :
    r = .ok t ∨ ∃ f, t = s.raise f := by
  rcases settle_cases s r with ⟨u, hr, hu⟩ | ⟨f, -, hu⟩
  · rw [hu] at h; cases h; exact .inl hr
  · rw [hu] at h; cases h; exact .inr ⟨f, rfl⟩

/-- The form `RRR` leaves the state with its first operand's register written, or a fault. -/
theorem settle_formRRR_eq_next {f : Word → Word → Except FaultRecord Word} {a b c : Word} {s t : State}
    (h : settle s (formRRR f a b c s) = .next t) :
    (∃ ra v, a = RegIndex.toWord ra ∧ t = s.setReg ra v) ∨ ∃ g, t = s.raise g := by
  refine (settle_eq_next h).imp_left fun hr => ?_
  simp only [formRRR, bind_eq_ok, pure_eq_ok, regIdx_eq_ok] at hr
  obtain ⟨ra, ha, -, -, -, -, v, -, rfl⟩ := hr
  exact ⟨ra, v, ha, rfl⟩

/-- COP leaves the state with `x[a]` written, whatever register `b` names, or a fault (R161). -/
theorem exec_cop {s t : State} {a b c : Word} (h : exec (.cop a b c) s = .next t) :
    (∃ ra v, a = RegIndex.toWord ra ∧ t = s.setReg ra v) ∨ ∃ f, t = s.raise f := by
  refine (settle_eq_next h).imp_left fun hr => ?_
  simp only [bind_eq_ok, pure_eq_ok, regIdx_eq_ok] at hr
  obtain ⟨ra, ha, rb, -, rfl⟩ := hr
  exact ⟨ra, s.reg rb, ha, rfl⟩

/-- AFC leaves the state with `x[a]` written, or a fault (R162). -/
theorem exec_afc {s t : State} {a b c : Word} (h : exec (.afc a b c) s = .next t) :
    (∃ ra v, a = RegIndex.toWord ra ∧ t = s.setReg ra v) ∨ ∃ f, t = s.raise f := by
  refine (settle_eq_next h).imp_left fun hr => ?_
  simp only [bind_eq_ok, pure_eq_ok, regIdx_eq_ok] at hr
  obtain ⟨ra, ha, rfl⟩ := hr
  exact ⟨ra, b, ha, rfl⟩

/-- LOAD leaves the state with `x[a]` written, whatever word it read, or a fault (R163). -/
theorem exec_load {s t : State} {a b c : Word} (h : exec (.load a b c) s = .next t) :
    (∃ ra v, a = RegIndex.toWord ra ∧ t = s.setReg ra v) ∨ ∃ f, t = s.raise f := by
  refine (settle_eq_next h).imp_left fun hr => ?_
  simp only [bind_eq_ok, pure_eq_ok, regIdx_eq_ok] at hr
  obtain ⟨ra, ha, v, -, rfl⟩ := hr
  exact ⟨ra, v, ha, rfl⟩

/-- The twelve instructions whose one effect is `x[a]` leave the state with `x[a]` written, or a fault (R24). -/
theorem exec_registerResult {i : Instr} {s t : State} {a b c : Word}
    (hi : i ∈ [Instr.add a b c, .mul a b c, .sub a b c, .div a b c, .cop a b c, .afc a b c, .load a b c,
      .equ a b c, .inf a b c, .infe a b c, .sup a b c, .supe a b c]) (h : exec i s = .next t) :
    (∃ ra v, a = RegIndex.toWord ra ∧ t = s.setReg ra v) ∨ ∃ f, t = s.raise f := by
  simp only [List.mem_cons, List.not_mem_nil, or_false] at hi
  rcases hi with rfl | rfl | rfl | rfl | rfl | rfl | rfl | rfl | rfl | rfl | rfl | rfl
  · exact settle_formRRR_eq_next h
  · exact settle_formRRR_eq_next h
  · exact settle_formRRR_eq_next h
  · exact settle_formRRR_eq_next h
  · exact exec_cop h
  · exact exec_afc h
  · exact exec_load h
  · exact settle_formRRR_eq_next h
  · exact settle_formRRR_eq_next h
  · exact settle_formRRR_eq_next h
  · exact settle_formRRR_eq_next h
  · exact settle_formRRR_eq_next h

/-- JMP and JMPC leave the state with the PC written, the state itself when the jump is not taken, or a fault. -/
theorem exec_jump {i : Instr} {s t : State} {a b c : Word} (hi : i ∈ [Instr.jmp a b c, .jmpc a b c])
    (h : exec i s = .next t) : t = s.setReg 15 (jumpCompensated a) ∨ t = s ∨ ∃ f, t = s.raise f := by
  simp only [List.mem_cons, List.not_mem_nil, or_false] at hi
  rcases hi with rfl | rfl
  · cases h; exact .inl rfl
  · rcases settle_eq_next h with hr | hf
    · simp only [bind_eq_ok, pure_eq_ok] at hr
      obtain ⟨rb, -, rfl⟩ := hr
      split
      · exact .inl rfl
      · exact .inr (.inl rfl)
    · exact .inr (.inr hf)

/-- POP leaves the state with `x[a]` and then SP written, or a fault. -/
theorem exec_pop {s t : State} {a b c : Word} (h : exec (.pop a b c) s = .next t) :
    (∃ ra v p, a = RegIndex.toWord ra ∧ t = (s.setReg ra v).setReg 14 p) ∨ ∃ f, t = s.raise f := by
  refine (settle_eq_next h).imp_left fun hr => ?_
  simp only [bind_eq_ok, pure_eq_ok, regIdx_eq_ok] at hr
  obtain ⟨ra, ha, v, -, rfl⟩ := hr
  exact ⟨ra, v, _, ha, rfl⟩

/-- STR leaves the state with the word at its operand `a` written, or a fault. -/
theorem exec_str {s t : State} {a b c : Word} (h : exec (.str a b c) s = .next t) :
    (∃ v, t = s.setMem a v) ∨ ∃ f, t = s.raise f := by
  refine (settle_eq_next h).imp_left fun hr => ?_
  simp only [bind_eq_ok, memWrite_eq_ok] at hr
  obtain ⟨rb, -, -, rfl⟩ := hr
  exact ⟨s.reg rb, rfl⟩

/-- PUSH leaves the state with SP and the word at the new SP written, or a fault. -/
theorem exec_push {s t : State} {a b c : Word} (h : exec (.push a b c) s = .next t) :
    (∃ v, t = (s.setReg 14 (pushAddress s)).setMem (pushAddress s) v) ∨ ∃ f, t = s.raise f := by
  refine (settle_eq_next h).imp_left fun hr => ?_
  simp only [bind_eq_ok, memWrite_eq_ok] at hr
  obtain ⟨ra, -, -, -, -, rfl⟩ := hr
  exact ⟨_, rfl⟩

/-! ### Registers and frames -/

/-- Settles O5, by the rule for a register read after a register write. -/
theorem registersAreOrdinary : Obligations.RegistersAreOrdinary :=
  fun s i j v => ⟨State.reg_setReg s i j v, rfl, rfl, rfl⟩

/-- Settles O23: the one write is to `x[a]`, and a fault writes no register. -/
theorem registerResultFrame : Obligations.RegisterResultFrame := by
  intro i s t a b c hi h
  rcases exec_registerResult hi h with ⟨ra, v, rfl, rfl⟩ | ⟨f, rfl⟩
  · exact ⟨fun r hr => State.reg_setReg_ne _ _ _ _ (ne_of_apply_ne _ hr), fun _ => rfl, .inl ⟨rfl, rfl⟩⟩
  · exact ⟨fun _ _ => rfl, fun _ => rfl, .inr ⟨rfl, rfl⟩⟩

/-- Settles O24: the one write is to the PC, and a jump not taken or a fault writes no register. -/
theorem jumpFrame : Obligations.JumpFrame := by
  intro i s t a b c hi h
  rcases exec_jump hi h with rfl | rfl | ⟨f, rfl⟩
  · exact ⟨fun r hr => State.reg_setReg_ne _ _ _ _ hr, fun _ => rfl, .inl ⟨rfl, rfl⟩⟩
  · exact ⟨fun _ _ => rfl, fun _ => rfl, .inl ⟨rfl, rfl⟩⟩
  · exact ⟨fun _ _ => rfl, fun _ => rfl, .inr ⟨rfl, rfl⟩⟩

/-- Settles O25: the two writes are to `x[a]` and SP, and a fault writes no register. -/
theorem popFrame : Obligations.PopFrame := by
  intro s t a b c h
  rcases exec_pop h with ⟨ra, v, p, rfl, rfl⟩ | ⟨f, rfl⟩
  · refine ⟨fun r hr hsp => ?_, fun _ => rfl, .inl ⟨rfl, rfl⟩⟩
    rw [State.reg_setReg_ne _ _ _ _ hsp, State.reg_setReg_ne _ _ _ _ (ne_of_apply_ne _ hr)]
  · exact ⟨fun _ _ _ => rfl, fun _ => rfl, .inr ⟨rfl, rfl⟩⟩

/-- Settles O26: the one memory write is at the store address, and a fault writes nothing. -/
theorem storeFrame : Obligations.StoreFrame := by
  intro i s t a b c hi h
  simp only [List.mem_cons, List.not_mem_nil, or_false] at hi
  rcases hi with rfl | rfl
  · rcases exec_str h with ⟨v, rfl⟩ | ⟨f, rfl⟩
    · refine ⟨fun _ _ => rfl, fun addr ha n hn => ?_, .inl ⟨rfl, rfl⟩⟩
      cases ha
      exact Memory.read_write_ne _ _ hn
    · exact ⟨fun _ _ => rfl, fun _ _ _ _ => rfl, .inr ⟨rfl, rfl, rfl⟩⟩
  · rcases exec_push h with ⟨v, rfl⟩ | ⟨f, rfl⟩
    · refine ⟨fun r hr => ?_, fun addr ha n hn => ?_, .inl ⟨rfl, rfl⟩⟩
      · have hr14 : r ≠ 14 := hr.resolve_left (by simp)
        rw [State.setMem_reg, State.reg_setReg_ne _ _ _ _ hr14]
      · cases ha
        exact Memory.read_write_ne _ _ hn
    · exact ⟨fun _ _ => rfl, fun _ _ _ _ => rfl, .inr ⟨rfl, rfl, rfl⟩⟩

/-! ### The invariant, by run state -/

/-- In RUNNING the invariant is canonical memory and no record. -/
theorem inv_iff_of_running {s : State} (hr : s.run = .running) :
    s.Inv ↔ Memory.wf s.mem ∧ s.fault = none := by
  simp only [State.Inv, hr, reduceCtorEq, false_iff, false_implies, and_true, Option.isSome_iff_ne_none, not_not]
  exact and_congr_right fun _ => ⟨And.left, fun hf => ⟨hf, by rw [hf]; rfl⟩⟩

/-- A fault of the table leaves a state that meets the invariant. -/
theorem inv_raise {s : State} {f : FaultRecord} (hm : Memory.wf s.mem) (hl : f.legal s.pc = true) :
    (s.raise f).Inv :=
  ⟨hm, by simp, hl, by simp⟩

/-- A halt at a fetchable opcode without a handler leaves a state that meets the invariant. -/
theorem inv_halt {s : State} (hm : Memory.wf s.mem) (hf : s.fault = none) (hp : s.pc.toNat ≤ 65531)
    (hh : hasHandler (Memory.read s.mem s.pc.toNat) = false) : s.halt.Inv :=
  ⟨hm, by simp [hf], by simp [hf], fun _ => ⟨hp, hh⟩⟩

/-- Decoding gives the halt exactly for an opcode word without a handler (R88, R90). -/
theorem isUnmapped_decode (w : InstrWords) : (decode w).isUnmapped = !hasHandler w.op := by
  unfold decode
  split
  case h_18 =>
    simp only [imp_false] at *
    have hout : ¬ (1 ≤ w.op.toNat ∧ w.op.toNat ≤ 17) := by omega
    simp [Instr.isUnmapped, hasHandler, hout]
  all_goals simp [Instr.isUnmapped, hasHandler, *]

/-- The one Word that is no address is 65535 (R51). -/
theorem toNat_lt_memWords {addr : Word} (h : addr ≠ 65535#16) : addr.toNat < Config.memWords := by
  rw [Config.memWords_eq]; bv_omega

/-! ### The invariant at reset and across a step -/

/-- An image that fits is answered by the reset state with the image in memory. -/
theorem resetWith_of_le {img : List Word} (h : img.length ≤ 65535) :
    State.resetWith img = some { State.reset with mem := Memory.ofWords 0 img } :=
  if_pos h

/-- An image with more words than memory is refused. -/
theorem resetWith_of_lt {img : List Word} (h : 65535 < img.length) : State.resetWith img = none :=
  if_neg (Nat.not_le.mpr h)

/-- Settles O40: the memory of an image is in canonical form, and reset is RUNNING with no record. -/
theorem invariantHoldsAfterReset : Obligations.InvariantHoldsAfterReset := by
  refine ⟨(inv_iff_of_running rfl).mpr ⟨Memory.reset_wf, rfl⟩, fun img s h => ?_⟩
  rcases Nat.lt_or_ge 65535 img.length with hlt | hle
  · rw [resetWith_of_lt hlt] at h; cases h
  · rw [resetWith_of_le hle] at h; cases h
    exact (inv_iff_of_running rfl).mpr ⟨Memory.ofWords_wf (by simpa using hle), rfl⟩

/-- The advance after a completed handler touches the PC alone. -/
theorem inv_afterHandler_of_running {u : State} (hr : u.run = .running) (hm : Memory.wf u.mem)
    (hf : u.fault = none) : (afterHandler u).Inv := by
  rw [afterHandler_of_running hr]
  exact (inv_iff_of_running (s := advancePc u) hr).mpr ⟨hm, hf⟩

/-- What follows a handler keeps the invariant: the advance touches the PC alone, and a halt or a fault leaves what
the invariant asks of it. -/
theorem inv_afterHandler {s u : State} (hr : s.run = .running) (hm : Memory.wf s.mem) (hf : s.fault = none)
    (hp : s.pc.toNat ≤ 65531) (hu : ExecResult (decode (wordsAt s)) s u) : (afterHandler u).Inv := by
  cases hu with
  | raised f hl _ =>
    rw [afterHandler_of_not_running (by simp)]
    exact inv_raise hm hl
  | halted hun =>
    rw [afterHandler_of_not_running (by simp)]
    exact inv_halt hm hf hp (by simpa [isUnmapped_decode, wordsAt] using hun)
  | registers _ x =>
    exact inv_afterHandler_of_running hr hm hf
  | stored _ x addr v ha _ =>
    exact inv_afterHandler_of_running hr (Memory.write_wf hm (toNat_lt_memWords ha) v) hf

/-- Settles O41, by the cases of a step: a fetch fault, or a handler's result and what follows it. -/
theorem everyStepKeepsTheInvariant : Obligations.EveryStepKeepsTheInvariant := by
  intro s t hs h
  obtain ⟨hr, hcases⟩ := step_cases h
  obtain ⟨hm, hf⟩ := (inv_iff_of_running hr).mp hs
  rcases hcases with ⟨hp, rfl⟩ | ⟨hp, u, -, hu, rfl⟩
  · exact inv_raise hm (by simpa [FaultRecord.legal] using hp)
  · exact inv_afterHandler hr hm hf hp hu

/-! ### Reset with an image -/

/-- Registers 0 to 13 are zero after reset (R36, D8). -/
theorem reset_reg_of_le {r : RegIndex} (h : r.val ≤ 13) : State.reset.reg r = 0#16 := by
  revert r; decide

/-- Settles O43: the image is read back word by word, and every other part is that of the reset state. -/
theorem resetLoadsTheImage : Obligations.ResetLoadsTheImage := by
  refine ⟨fun img hlen => ⟨_, resetWith_of_le hlen, fun r hr => reset_reg_of_le hr, rfl, rfl, fun n => ?_, rfl, rfl⟩,
    fun img hlen => resetWith_of_lt hlen, rfl⟩
  simpa using Memory.read_ofWords 0 img n

end Sys2Proof.Machine

/-! SUPPORT. The memory family: what the shared reads, the fetch and the two stores answer, which memory words a step
can change, and the words of a byte image. -/

namespace Sys2Proof.Machine

/-! ### Addresses and reads -/

/-- The one Word above the last valid address is 65535 (R51). -/
theorem addr_eq_last_iff {addr : Word} : addr = 65535#16 ↔ 65534 < addr.toNat := by bv_omega

theorem memRead4_ok {s : State} {addr : Word} (h : addr.toNat ≤ 65531) :
    memRead4 s addr = .ok ⟨Memory.read s.mem addr.toNat, Memory.read s.mem (addr.toNat + 1),
      Memory.read s.mem (addr.toNat + 2), Memory.read s.mem (addr.toNat + 3)⟩ := by
  simp [memRead4, windowInMemory_four, h]

theorem memRead4_error {s : State} {addr : Word} (h : 65531 < addr.toNat) :
    memRead4 s addr = .error ⟨.fetchOutOfRange, addr⟩ := by
  simp [memRead4, windowInMemory_four, Nat.not_le.mpr h]

theorem memRead4_op {s : State} {addr : Word} {w : InstrWords} (h : memRead4 s addr = .ok w) :
    w.op = Memory.read s.mem addr.toNat := by
  rcases Nat.lt_or_ge 65531 addr.toNat with hlt | hle
  · rw [memRead4_error hlt] at h; cases h
  · rw [memRead4_ok hle] at h; cases h; rfl

/-- A fetch that succeeds gives the words memory holds at the PC (R113). -/
theorem wordsAt_of_fetch {s : State} {w : InstrWords} (h : fetch s = .ok w) : w = wordsAt s := by
  rcases Nat.lt_or_ge 65531 s.pc.toNat with hlt | hle
  · rw [fetch_error hlt] at h; cases h
  · rw [fetch_ok hle] at h; cases h; rfl

/-- Settles O6, by the answers of the two reads inside and outside memory. -/
theorem memReadReturnsWordsOrFaults : Obligations.MemReadReturnsWordsOrFaults := by
  refine fun s addr => ⟨fun h => memRead_ok ?_, fun h => ?_, fun h => memRead4_ok (by omega),
    fun h => memRead4_error (by omega)⟩
  · rw [Ne, addr_eq_last_iff]; omega
  · obtain rfl := addr_eq_last_iff.mpr h
    exact memRead_error s

/-- Settles O7: a write that is allowed leaves `s.setMem addr v`, and the rest is reading from that state. -/
theorem memWriteChangesOneWord : Obligations.MemWriteChangesOneWord := by
  refine fun s addr v => ⟨fun h => ?_, fun h => ?_⟩
  · obtain rfl := addr_eq_last_iff.mpr h
    exact memWrite_error s v
  · have ha : addr ≠ 65535#16 := by rw [Ne, addr_eq_last_iff]; omega
    have hv : Memory.read (s.setMem addr v).mem addr.toNat = v := Memory.read_write_same _ _ _
    exact ⟨s.setMem addr v, memWrite_ok v ha, by rw [memRead_ok ha, hv], fun w hw => (memRead4_op hw).trans hv,
      fun b hb => Memory.read_write_ne _ _ hb, rfl, rfl, rfl⟩

/-! ### Which memory words a step changes -/

@[simp] theorem afterHandler_mem (t : State) : (afterHandler t).mem = t.mem := by
  unfold afterHandler; split <;> rfl

@[simp] theorem afterHandler_run (t : State) : (afterHandler t).run = t.run := by
  unfold afterHandler; split <;> rfl

theorem pushAddress_eq (s : State) : pushAddress s = s.sp - 1#16 := wrap16_sub s.sp 1#16

/-- PUSH stores one below SP, without a wrap unless SP is 0. -/
theorem toNat_pushAddress {s : State} (h : s.sp ≠ 0#16) : (pushAddress s).toNat = s.sp.toNat - 1 := by
  rw [pushAddress_eq]; bv_omega

/-- Only STR and PUSH have a store address (R54, R67). -/
theorem storeAddress_eq_some {i : Instr} {s : State} {addr : Word} (h : storeAddress i s = some addr) :
    (∃ b c, i = .str addr b c) ∨ ((∃ a b c, i = .push a b c) ∧ addr = pushAddress s) := by
  cases i with
  | str a b c => cases h; exact .inl ⟨b, c, rfl⟩
  | push a b c => cases h; exact .inr ⟨⟨a, b, c, rfl⟩, rfl⟩
  | _ => cases h

/-- A handler that changed a memory word completed a store to that word. -/
theorem ExecResult.stored_of_read_ne {i : Instr} {s u : State} {n : Nat} (h : ExecResult i s u)
    (hn : Memory.read u.mem n ≠ Memory.read s.mem n) :
    u.run = s.run ∧ ∃ addr, addr ≠ 65535#16 ∧ storeAddress i s = some addr ∧ n = addr.toNat := by
  cases h with
  | raised f _ _ => exact absurd rfl hn
  | halted _ => exact absurd rfl hn
  | registers _ x => exact absurd rfl hn
  | stored _ x addr v ha hs => exact ⟨rfl, addr, ha, hs, by_contra fun hne => hn (Memory.read_write_ne _ _ hne)⟩

/-- Settles O37: of the cases of a step only a completed store changes memory, and only STR and PUSH store. -/
theorem onlyStrAndPushChangeMemory : Obligations.OnlyStrAndPushChangeMemory := by
  intro s t n h hn
  obtain ⟨hr, ⟨-, rfl⟩ | ⟨-, u, -, hu, rfl⟩⟩ := step_cases h
  · exact absurd rfl hn
  · rw [afterHandler_mem] at hn
    obtain ⟨hrun, addr, ha, hs, rfl⟩ := hu.stored_of_read_ne hn
    refine ⟨by rw [afterHandler_run, hrun, hr], ?_⟩
    rcases storeAddress_eq_some hs with ⟨b, c, hi⟩ | ⟨⟨a, b, c, hi⟩, rfl⟩
    · exact .inl ⟨addr, b, c, hi, rfl⟩
    · have hsp : s.sp ≠ 0#16 := mt (pushAddress_eq_last s).mpr ha
      exact .inr ⟨a, b, c, hi, by rw [toNat_pushAddress hsp]; bv_omega⟩

/-! ### A store is seen by the next fetch -/

/-- STR of a register to an address of memory stores that register (R164). -/
theorem exec_str_toWord (s : State) {a : Word} (rb : RegIndex) (c : Word) (ha : a ≠ 65535#16) :
    exec (.str a rb.toWord c) s = .next (s.setMem a (s.reg rb)) := by
  have h : (regIdx rb.toWord >>= fun r => memWrite s a (s.reg r)) = .ok (s.setMem a (s.reg rb)) :=
    bind_eq_ok.mpr ⟨rb, regIdx_toWord rb, memWrite_ok _ ha⟩
  exact congrArg (settle s) h

/-- PUSH of a register with SP not 0 stores that register one below SP, for PUSH R14 the new SP (R222). -/
theorem exec_push_toWord {s : State} (ra : RegIndex) (b c : Word) (hsp : s.sp ≠ 0#16) :
    exec (.push ra.toWord b c) s = .next ((s.setReg 14 (pushAddress s)).setMem (pushAddress s)
      (if ra = 14 then pushAddress s else s.reg ra)) := by
  have ha : pushAddress s ≠ 65535#16 := mt (pushAddress_eq_last s).mp hsp
  have hv : (s.setReg 14 (pushAddress s)).reg ra = if ra = 14 then pushAddress s else s.reg ra := by
    rw [State.reg_setReg]; exact if_congr eq_comm rfl rfl
  rw [← hv]
  exact congrArg (settle s) (bind_eq_ok.mpr ⟨ra, regIdx_toWord ra,
    bind_eq_ok.mpr ⟨(), checkDataAddress_ok ha, memWrite_ok _ ha⟩⟩)

/-- The word of a fetch that stands at address `n` is the word memory holds there. -/
theorem fetchedAt_of_fetch {s : State} {w : InstrWords} (n : Nat) (h : fetch s = .ok w) :
    fetchedAt s w n (Memory.read s.mem n) := by
  obtain rfl := wordsAt_of_fetch h
  refine ⟨?_, ?_, ?_, ?_⟩ <;> (rintro rfl; rfl)

/-- The word a step's handler stored is what memory holds there after the step. -/
theorem read_of_step_store {s s' t : State} {w : InstrWords} {addr v : Word} (hw : standsAt s w)
    (he : exec (decode w) s = .next (s'.setMem addr v)) (h : step s = .next t) :
    Memory.read t.mem addr.toNat = v := by
  rw [step_of_standsAt hw he] at h
  cases h
  rw [afterHandler_mem]
  exact Memory.read_write_same _ _ _

/-- Settles O38: a fetch gives what memory holds, and memory holds the stored word at the store address. -/
theorem storeIsSeenByTheNextFetch : Obligations.StoreIsSeenByTheNextFetch := by
  refine ⟨fun s t rb a c w hw ha hs hf => ?_, fun s t ra b c w hw hsp hs hf => ?_,
    fun u n w hf => fetchedAt_of_fetch n hf⟩
  · have hv := read_of_step_store hw (exec_str_toWord s rb c ha) hs
    exact hv ▸ fetchedAt_of_fetch a.toNat hf
  · have hv := read_of_step_store hw (exec_push_toWord ra b c hsp) hs
    rw [toNat_pushAddress hsp, pushAddress_eq] at hv
    exact hv ▸ fetchedAt_of_fetch (s.sp.toNat - 1) hf

/-! ### The words of a byte image -/

theorem toNat_wordOfBytes_littleEndian (x y : Byte) :
    (Image.wordOfBytes .littleEndian x y).toNat = x.toNat + 256 * y.toNat := by
  have := x.isLt
  have := y.isLt
  simp only [Image.wordOfBytes, BitVec.toNat_ofNat]; omega

theorem toNat_wordOfBytes_bigEndian (x y : Byte) :
    (Image.wordOfBytes .bigEndian x y).toNat = 256 * x.toNat + y.toNat := by
  have := x.isLt
  have := y.isLt
  simp only [Image.wordOfBytes, BitVec.toNat_ofNat]; omega

/-- An odd number of bytes is no image (R72). -/
theorem ofBytes_of_odd (order : Config.ByteOrder) (bs : List Byte) (h : bs.length % 2 = 1) :
    Image.ofBytes order bs = none := by
  induction bs using Image.ofBytes.induct with
  | case1 => cases h
  | case2 x => rfl
  | case3 x y rest ih =>
    have hrest : rest.length % 2 = 1 := by simp only [List.length_cons] at h; omega
    rw [Image.ofBytes, ih hrest, Option.map_none]

/-- An even number of bytes is an image of half as many words, word `i` made of bytes `2i` and `2i + 1` (R72). -/
theorem ofBytes_of_even (order : Config.ByteOrder) (bs : List Byte) (h : bs.length % 2 = 0) :
    ∃ ws, Image.ofBytes order bs = some ws ∧ 2 * ws.length = bs.length ∧ ∀ i, i < ws.length →
      ws.getD i 0 = Image.wordOfBytes order (bs.getD (2 * i) 0) (bs.getD (2 * i + 1) 0) := by
  induction bs using Image.ofBytes.induct with
  | case1 => exact ⟨[], rfl, rfl, fun i hi => absurd hi (Nat.not_lt_zero i)⟩
  | case2 x => cases h
  | case3 x y rest ih =>
    have hrest : rest.length % 2 = 0 := by simp only [List.length_cons] at h; omega
    obtain ⟨ws, he, hlen, hw⟩ := ih hrest
    refine ⟨Image.wordOfBytes order x y :: ws, by rw [Image.ofBytes, he, Option.map_some],
      by simp only [List.length_cons]; omega, fun i hi => ?_⟩
    cases i with
    | zero => rfl
    | succ i => exact hw i (Nat.lt_of_succ_lt_succ hi)

/-- Settles O44, by the recursion of `Image.ofBytes` over byte pairs and the value of a pair in each order. -/
theorem imageWordsAreBytePairs : Obligations.ImageWordsAreBytePairs := by
  refine ⟨ofBytes_of_odd, fun bs h => ?_, fun bs h => ?_⟩
  · obtain ⟨ws, he, hlen, hw⟩ := ofBytes_of_even .littleEndian bs h
    exact ⟨ws, he, hlen, fun i hi => by rw [hw i hi, toNat_wordOfBytes_littleEndian]⟩
  · obtain ⟨ws, he, hlen, hw⟩ := ofBytes_of_even .bigEndian bs h
    exact ⟨ws, he, hlen, fun i hi => by rw [hw i hi, toNat_wordOfBytes_bigEndian]⟩

end Sys2Proof.Machine

/-! SUPPORT. The encoding family: the opcode words without a handler, that decoding and encoding undo each other, and the
operand words a handler does not read. -/

namespace Sys2Proof.Machine

/-! ### Opcode words without a handler -/

/-- Outside 0x0001 to 0x0011 a whole opcode word is 0 or at least 18 (R89). -/
theorem hasHandler_eq_false {op : Word} : hasHandler op = false ↔ op.toNat = 0 ∨ 18 ≤ op.toNat := by
  rw [hasHandler, decide_eq_false_iff_not, Config.numOpcodes_eq]
  omega

/-- An opcode word without a handler decodes to the halt that carries all four words (R90). -/
theorem decode_of_hasHandler_eq_false {w : InstrWords} (h : hasHandler w.op = false) :
    decode w = .unmapped w.op w.a w.b w.c := by
  have hout := hasHandler_eq_false.mp h
  unfold decode
  split
  case h_18 => rfl
  all_goals omega

/-- Settles O3: decoding gives the halt exactly for an opcode word without a handler. -/
theorem opcodeMatchIsOnTheWholeWord : Obligations.OpcodeMatchIsOnTheWholeWord := by
  intro w
  rw [isUnmapped_decode, Bool.not_eq_true']
  exact ⟨hasHandler_eq_false, decode_of_hasHandler_eq_false⟩

/-! ### Decoding and encoding undo each other -/

/-- The words of each of the seventeen decode by their own row; those of a halt decode to it because a well-formed halt
has an opcode word of no row. -/
theorem decode_encode {i : Instr} (h : i.wellFormed = true) : decode (encode i) = i := by
  cases i with
  | unmapped op a b c =>
    have hop : hasHandler op = false := by simpa [Instr.wellFormed] using h
    exact decode_of_hasHandler_eq_false (w := ⟨op, a, b, c⟩) hop
  | _ => rfl

/-- Settles O1, by the round trip from the instruction. -/
theorem decodeAfterEncodeIsIdentity : Obligations.DecodeAfterEncodeIsIdentity :=
  fun _ h => decode_encode h

/-- The four words are determined by the number of the opcode word and the operand words. -/
theorem instrWords_eq_of_toNat_op {w : InstrWords} {op : Word} (h : w.op.toNat = op.toNat) :
    ⟨op, w.a, w.b, w.c⟩ = w := by
  rw [← BitVec.eq_of_toNat_eq h]

theorem encode_decode (w : InstrWords) : encode (decode w) = w := by
  unfold decode
  split
  case h_18 => rfl
  all_goals
    rename_i hop
    exact instrWords_eq_of_toNat_op hop

/-- Only a halt can be ill formed. -/
theorem wellFormed_of_isUnmapped_eq_false {i : Instr} (h : i.isUnmapped = false) : i.wellFormed = true := by
  cases i with
  | unmapped op a b c => cases h
  | _ => rfl

theorem wellFormed_decode (w : InstrWords) : (decode w).wellFormed = true := by
  cases h : hasHandler w.op with
  | false => simp [decode_of_hasHandler_eq_false h, Instr.wellFormed, h]
  | true => exact wellFormed_of_isUnmapped_eq_false (by rw [isUnmapped_decode, h, Bool.not_true])

/-- Settles O2, by the round trip from the words and the well-formedness of what they decode to. -/
theorem encodeAfterDecodeIsIdentity : Obligations.EncodeAfterDecodeIsIdentity :=
  fun w => ⟨encode_decode w, wellFormed_decode w⟩

/-- An instruction is what the words written for it decode to. -/
theorem decode_eq_of_encode_eq {w : InstrWords} {i : Instr} (hi : i.wellFormed = true) (hw : encode i = w) :
    decode w = i :=
  hw ▸ decode_encode hi

/-- Settles O4: each of the twelve is the encoding of a well-formed instruction. -/
theorem specEncodingsDecode : Obligations.SpecEncodingsDecode := by
  refine ⟨?_, ?_, ?_, ?_, ?_, ?_, ?_, ?_, ?_, ?_, ?_, ?_⟩ <;> exact decode_eq_of_encode_eq rfl rfl

/-! ### Operand words a handler does not read -/

/-- Settles O22: the meaning of each of these opcodes does not mention the operand words it does not use, so the two
sides are the same term once the handler is unfolded. -/
theorem unusedOperandWordsAreIgnored : Obligations.UnusedOperandWordsAreIgnored :=
  fun _ _ _ _ _ _ _ _ => ⟨rfl, rfl, rfl, rfl, rfl, rfl, rfl, rfl, rfl⟩

end Sys2Proof.Machine

/-! SUPPORT. The execution cycle family: the step from the words at the PC, the states a step can end a run in, the
instructions that leave the PC to the engine, runs by fuel, and the placing of an instruction for the next fetch. -/

namespace Sys2Proof.Machine

/-! ### The step from the words at the PC -/

/-- The engine's advance adds 4 to the PC modulo 65536 (R118). -/
theorem advancePc_eq_setReg (u : State) :
    ∃ v : Word, v.toNat = (u.pc.toNat + 4) % 65536 ∧ advancePc u = u.setReg 15 v := by
  refine ⟨wrap16 ((u.pc.toNat : Int) + 4), ?_, rfl⟩
  have h := toNat_wrap16 ((u.pc.toNat : Int) + 4)
  omega

/-- Settles O31: what follows the handler is the advance after completion and nothing else otherwise. -/
theorem stepRunsDecodedInstruction : Obligations.StepRunsDecodedInstruction := by
  intro s u w hw hu
  rw [step_of_standsAt hw hu]
  refine ⟨fun hr => ?_, fun hr => by rw [afterHandler_of_not_running hr]⟩
  obtain ⟨v, hv, hadv⟩ := advancePc_eq_setReg u
  exact ⟨v, hv, by rw [afterHandler_of_running hr, hadv]⟩

/-- With the words `w` at the PC the hook sees what the handler left, if it completed (R264). -/
theorem observe_of_standsAt {s u : State} {w : InstrWords} (hw : standsAt s w) (hu : exec (decode w) s = .next u) :
    observe s = if u.run = .running then some u else none := by
  obtain ⟨hr, hp, hwords⟩ := hw
  have hf : fetch s = .ok w := by rw [fetch_ok hp, ← hwords]; rfl
  simp only [observe, hr, hf, hu]
  cases u.run <;> rfl

/-- Settles O21: the meaning of the row is the halt, which writes `run` alone. -/
theorem unmappedHaltsAndChangesNothingElse : Obligations.UnmappedHaltsAndChangesNothingElse :=
  fun _ _ _ _ _ => rfl

/-- Settles O32: such a word decodes to the halt, which is followed neither by the advance nor by the hook. -/
theorem unmappedOpcodeStepHalts : Obligations.UnmappedOpcodeStepHalts := by
  intro s op a b c hw hop
  have hexec : exec (decode ⟨op, a, b, c⟩) s = .next s.halt := by
    rw [decode_of_hasHandler_eq_false (hasHandler_eq_false.mpr hop)]
    exact unmappedHaltsAndChangesNothingElse s op a b c
  have hrun : s.halt.run ≠ .running := by simp
  exact ⟨(stepRunsDecodedInstruction s s.halt _ hw hexec).2 hrun, by rw [observe_of_standsAt hw hexec, if_neg hrun]⟩

/-! ### The step that ends a run -/

/-- A handler that does not leave `run` as it was raised a fault or halted. -/
theorem ExecResult.raise_or_halt {i : Instr} {s u : State} (h : ExecResult i s u) (hu : u.run ≠ s.run) :
    (∃ f, u = s.raise f) ∨ u = s.halt := by
  cases h with
  | raised f _ _ => exact .inl ⟨f, rfl⟩
  | halted _ => exact .inr rfl
  | registers _ x => exact absurd rfl hu
  | stored _ x addr v _ _ => exact absurd rfl hu

/-- A step that ends a run raised a fault in the state it started from, or halted there. -/
theorem raise_or_halt_of_step {s t : State} (h : step s = .next t) (ht : t.run ≠ .running) :
    (∃ f, t = s.raise f) ∨ t = s.halt := by
  obtain ⟨hr, ⟨-, rfl⟩ | ⟨-, u, -, hu, rfl⟩⟩ := step_cases h
  · exact .inl ⟨_, rfl⟩
  · rw [afterHandler_run] at ht
    rw [afterHandler_of_not_running ht]
    exact hu.raise_or_halt (hr ▸ ht)

/-- A RUNNING state with no record is what it was before a fault or a halt was taken in it: neither changed a register
or a memory word (R114, R246). -/
theorem rearmed_eq_of_raise_or_halt {s t : State} (hr : s.run = .running) (hf : s.fault = none)
    (ht : (∃ f, t = s.raise f) ∨ t = s.halt) : { t with run := .running, fault := none } = s := by
  rcases ht with ⟨f, rfl⟩ | rfl
  · exact State.ext_reg (fun _ => rfl) rfl hr.symm hf.symm
  · exact State.ext_reg (fun _ => rfl) rfl hr.symm hf.symm

/-- Settles O42: the state a run ended in, made RUNNING with no record, is the state the last step started from. -/
theorem everyEndExplainsItself : Obligations.EveryEndExplainsItself := by
  intro s t hs h ht
  obtain ⟨hr, -⟩ := step_cases h
  obtain ⟨-, hf⟩ := (inv_iff_of_running hr).mp hs
  rw [rearmed_eq_of_raise_or_halt hr hf (raise_or_halt_of_step h ht)]
  exact h

/-! ### The PC of a completed instruction -/

/-- A handler of no jump that does not name register 15 as destination leaves the PC to the engine: by its frame
register 15 is not among the registers it may write (R24, R26). -/
theorem pc_of_exec {i : Instr} {s u : State} (h : exec i s = .next u)
    (hj : ∀ a b c, i ≠ .jmp a b c ∧ i ≠ .jmpc a b c)
    (hd : ¬ ((roles i).1 = .destReg ∧ (operands i).1 = 15)) : u.pc = s.pc := by
  cases i with
  | jmp a b c => exact absurd rfl (hj a b c).1
  | jmpc a b c => exact absurd rfl (hj a b c).2
  | pop a b c => exact (popFrame s u a b c h).1 15 (fun ha => hd ⟨rfl, ha.symm⟩) (by decide)
  | str a b c => exact (storeFrame _ s u a b c (by simp) h).1 15 (.inr (by decide))
  | push a b c => exact (storeFrame _ s u a b c (by simp) h).1 15 (.inr (by decide))
  | unmapped op a b c => cases h; rfl
  | _ a b c => exact (registerResultFrame _ s u a b c (by simp) h).1 15 fun ha => hd ⟨rfl, ha.symm⟩

/-- Settles O34: the handler left the PC as it was, so the advance is the only change to it. -/
theorem pcAdvancesByFour : Obligations.PcAdvancesByFour := by
  intro s t w hw h ht hj hd
  obtain ⟨u, hu, -⟩ := exec_result (decode w) s
  obtain ⟨hdone, hended⟩ := stepRunsDecodedInstruction s u w hw hu
  by_cases hr : u.run = .running
  · obtain ⟨v, hv, hstep⟩ := hdone hr
    rw [hstep] at h
    cases h
    rw [State.pc, Config.pcIndex_eq, State.reg_setReg_same, hv, pc_of_exec hu hj hd]
  · rw [hended hr] at h
    cases h
    exact absurd ht hr

/-! ### Runs -/

theorem step_of_halted {s : State} (h : s.run = .halted) : step s = .fault .haltedTakesNoStep := by
  simp [step, engineStep, h]

theorem step_of_fatal {s : State} (h : s.run = .fatal) : step s = .fault .fatalTakesNoStep := by
  simp [step, engineStep, h]

/-- A RUNNING machine always takes its step (R110). -/
theorem exists_step_of_running {s : State} (h : s.run = .running) : ∃ t, step s = .next t := by
  rcases Nat.lt_or_ge 65531 s.pc.toNat with hlt | hle
  · exact ⟨_, step_of_fetch_error h hlt⟩
  · obtain ⟨u, hu, -⟩ := exec_result (decode (wordsAt s)) s
    exact ⟨_, step_of_standsAt ⟨h, hle, rfl⟩ hu⟩

theorem runFor_succ_of_step {s t : State} (h : step s = .next t) (fuel : Nat) :
    runFor (fuel + 1) s = runFor fuel t := by
  simp only [runFor, h]

/-- A machine in HALTED or FATAL stays as it is however long it runs (R111). -/
theorem runFor_of_not_running {s : State} (h : s.run ≠ .running) (fuel : Nat) : runFor fuel s = s := by
  cases fuel with
  | zero => rfl
  | succ fuel =>
    cases hr : s.run with
    | running => exact absurd hr h
    | halted => simp only [runFor, step_of_halted hr]
    | fatal => simp only [runFor, step_of_fatal hr]

/-- A run of `m + n` steps is a run of `n` steps from where a run of `m` steps got. -/
theorem runFor_add (m n : Nat) (s : State) : runFor (m + n) s = runFor n (runFor m s) := by
  induction m generalizing s with
  | zero => rw [Nat.zero_add, runFor]
  | succ m ih =>
    by_cases hr : s.run = .running
    · obtain ⟨t, ht⟩ := exists_step_of_running hr
      rw [Nat.add_right_comm, runFor_succ_of_step ht, runFor_succ_of_step ht, ih]
    · simp only [runFor_of_not_running hr]

/-- The final state within some fuel is the state the run got to, if that is a terminal one (R123). -/
theorem finalState_eq_ite (fuel : Nat) (s : State) :
    finalState fuel s = if (runFor fuel s).run = .running then none else some (runFor fuel s) := by
  unfold finalState
  cases (runFor fuel s).run <;> rfl

theorem finalState_of_not_running {fuel : Nat} {s t : State} (h : runFor fuel s = t) (ht : t.run ≠ .running) :
    finalState fuel s = some t := by
  rw [finalState_eq_ite, h, if_neg ht]

/-- Settles O33, by the answers of `step` in the terminal states and the run they give. -/
theorem terminalStatesTakeNoStep : Obligations.TerminalStatesTakeNoStep := by
  refine ⟨fun s => step_of_halted, fun s => step_of_fatal, fun s fuel hr => ?_⟩
  have hrun := runFor_of_not_running hr fuel
  exact ⟨hrun, finalState_of_not_running hrun hr⟩

/-- Settles O45: a longer run is one from the state the shorter run got to, and that state is terminal. -/
theorem finalStateIsFinal : Obligations.FinalStateIsFinal := by
  refine fun fuel s => ⟨fun t h => ?_, fun h => ?_⟩
  · rw [finalState_eq_ite, Option.ite_none_left_eq_some, Option.some.injEq] at h
    obtain ⟨hr, rfl⟩ := h
    refine ⟨hr, fun more => ?_⟩
    have hrun : runFor (fuel + more) s = runFor fuel s := by rw [runFor_add, runFor_of_not_running hr]
    exact ⟨hrun, finalState_of_not_running hrun hr⟩
  · by_contra hr
    rw [finalState_of_not_running rfl hr] at h
    cases h

/-! ### The instruction placed for the next fetch -/

@[simp] theorem rearm_run (s : State) : (rearm s).run = .running := by
  cases hr : s.run <;> simp [rearm, hr]

@[simp] theorem rearm_pc (s : State) : (rearm s).pc = s.pc := by
  unfold rearm; split <;> rfl

/-- The address an instruction is placed at leaves room for its four words. -/
theorem placeAddress_le (s : State) : placeAddress s ≤ 65531 := by
  rw [placeAddress, Config.instrWords_eq, windowInMemory_four]
  split
  case isTrue h => exact of_decide_eq_true h
  case isFalse => omega

@[simp] theorem placeInstruction_mem (s : State) (w : InstrWords) :
    (placeInstruction s w).mem = placeWords (rearm s).mem (placeAddress s) w := by
  unfold placeInstruction; dsimp only; split <;> rfl

@[simp] theorem placeInstruction_run (s : State) (w : InstrWords) : (placeInstruction s w).run = .running := by
  unfold placeInstruction; dsimp only; split <;> exact rearm_run s

/-- Placing an instruction ends with the PC at the address of its first word. -/
theorem toNat_placeInstruction_pc (s : State) (w : InstrWords) : (placeInstruction s w).pc.toNat = placeAddress s := by
  have hle := placeAddress_le s
  unfold placeInstruction
  dsimp only
  split
  case isTrue h => exact h
  case isFalse =>
    change (((rearm s).setReg 15 (BitVec.ofNat 16 (placeAddress s))).reg 15).toNat = placeAddress s
    rw [State.reg_setReg_same, BitVec.toNat_ofNat]
    omega

/-- The four words of a placed instruction are read back at the four addresses from `addr` on. -/
theorem read_placeWords (m : Memory) (addr : Nat) (w : InstrWords) :
    Memory.read (placeWords m addr w) addr = w.op ∧ Memory.read (placeWords m addr w) (addr + 1) = w.a ∧
    Memory.read (placeWords m addr w) (addr + 2) = w.b ∧ Memory.read (placeWords m addr w) (addr + 3) = w.c := by
  simp [placeWords]

/-- A placed instruction is the one the next step fetches. -/
theorem placeInstruction_standsAt (s : State) (w : InstrWords) : standsAt (placeInstruction s w) w := by
  obtain ⟨hop, ha, hb, hc⟩ := read_placeWords (rearm s).mem (placeAddress s) w
  have hpc := toNat_placeInstruction_pc s w
  refine ⟨placeInstruction_run s w, hpc ▸ placeAddress_le s, ?_⟩
  rw [wordsAt, hpc, placeInstruction_mem, hop, ha, hb, hc]

/-- Settles O46: `withFetchWord` is the placing of the four words. -/
theorem placedInstructionIsFetchedNext : Obligations.PlacedInstructionIsFetchedNext :=
  fun s n => placeInstruction_standsAt s (tableWords 64 n)

end Sys2Proof.Machine

/-! SUPPORT. The arithmetic family: what a handler of the form `RRR` leaves on register operands and on a bad index, the
results of ADD, MUL, SUB and DIV, and the step of an instruction that writes one register. -/

namespace Sys2Proof.Machine

/-! ### The first operand that is no register index -/

theorem firstBadIndex_toWord_cons (r : RegIndex) (ws : List Word) :
    firstBadIndex (r.toWord :: ws) = firstBadIndex ws :=
  List.find?_cons_of_neg (by rw [RegIndex.toNat_toWord]; simp [r.isLt])

theorem firstBadIndex_cons_of_le {w : Word} (ws : List Word) (h : 16 ≤ w.toNat) :
    firstBadIndex (w :: ws) = some w :=
  List.find?_cons_of_pos (decide_eq_true h)

/-- The form `RRR` faults on the first operand above 15, whatever its result function (R121, R247). -/
theorem formRRR_of_firstBadIndex (f : Word → Word → Except FaultRecord Word) (s : State) {a b c w : Word}
    (h : firstBadIndex [a, b, c] = some w) : formRRR f a b c s = .error ⟨.registerIndexOutOfRange, w⟩ := by
  simp only [formRRR, bind_eq_error]
  rcases regIdx_cases a with ⟨ra, rfl, ea⟩ | ⟨ha, ea⟩
  · rw [firstBadIndex_toWord_cons] at h
    refine .inr ⟨ra, ea, ?_⟩
    rcases regIdx_cases b with ⟨rb, rfl, eb⟩ | ⟨hb, eb⟩
    · rw [firstBadIndex_toWord_cons] at h
      refine .inr ⟨rb, eb, .inl ?_⟩
      rcases regIdx_cases c with ⟨rc, rfl, -⟩ | ⟨hc, ec⟩
      · rw [firstBadIndex_toWord_cons] at h; cases h
      · rw [firstBadIndex_cons_of_le _ hc] at h; cases h
        exact ec
    · rw [firstBadIndex_cons_of_le _ hb] at h; cases h
      exact .inl eb
  · rw [firstBadIndex_cons_of_le _ ha] at h; cases h
    exact .inl ea

/-! ### A handler of the form `RRR` -/

theorem settle_formRRR_of_firstBadIndex (f : Word → Word → Except FaultRecord Word) (s : State) {a b c w : Word}
    (h : firstBadIndex [a, b, c] = some w) :
    settle s (formRRR f a b c s) = .next (s.raise ⟨.registerIndexOutOfRange, w⟩) := by
  rw [formRRR_of_firstBadIndex f s h, settle_error]

theorem settle_formRRR_toWord_ok {f : Word → Word → Except FaultRecord Word} {s : State} {rb rc : RegIndex} {v : Word}
    (ra : RegIndex) (h : f (s.reg rb) (s.reg rc) = .ok v) :
    settle s (formRRR f ra.toWord rb.toWord rc.toWord s) = .next (s.setReg ra v) := by
  rw [formRRR_toWord, h]; rfl

theorem settle_formRRR_toWord_error {f : Word → Word → Except FaultRecord Word} {s : State} {rb rc : RegIndex}
    {g : FaultRecord} (ra : RegIndex) (h : f (s.reg rb) (s.reg rc) = .error g) :
    settle s (formRRR f ra.toWord rb.toWord rc.toWord s) = .next (s.raise g) := by
  rw [formRRR_toWord, h]; rfl

/-! ### ADD, MUL, SUB and DIV on register operands -/

theorem exec_add_toWord (s : State) (ra rb rc : RegIndex) :
    exec (.add ra.toWord rb.toWord rc.toWord) s = .next (s.setReg ra (s.reg rb + s.reg rc)) :=
  settle_formRRR_toWord_ok ra (congrArg Except.ok (wrap16_add _ _))

theorem exec_mul_toWord (s : State) (ra rb rc : RegIndex) :
    exec (.mul ra.toWord rb.toWord rc.toWord) s = .next (s.setReg ra (s.reg rb * s.reg rc)) :=
  settle_formRRR_toWord_ok ra (congrArg Except.ok (wrap16_mul _ _))

theorem exec_sub_toWord (s : State) (ra rb rc : RegIndex) :
    exec (.sub ra.toWord rb.toWord rc.toWord) s = .next (s.setReg ra (s.reg rb - s.reg rc)) :=
  settle_formRRR_toWord_ok ra (congrArg Except.ok (wrap16_sub _ _))

theorem quotient_of_ne_zero (u : Word) {v : Word} (h : v ≠ 0#16) : quotient u v = .ok (u / v) := by
  have hv : v ≠ 0 := h
  rw [quotient, if_neg hv, ← BitVec.toNat_udiv, BitVec.ofNat_toNat, BitVec.setWidth_eq]

theorem quotient_zero (u : Word) : quotient u 0#16 = .error ⟨.divisionByZero, 0#16⟩ := rfl

theorem exec_div_toWord {s : State} {rc : RegIndex} (ra rb : RegIndex) (h : s.reg rc ≠ 0#16) :
    exec (.div ra.toWord rb.toWord rc.toWord) s = .next (s.setReg ra (s.reg rb / s.reg rc)) :=
  settle_formRRR_toWord_ok ra (quotient_of_ne_zero _ h)

theorem exec_div_toWord_zero {s : State} {rc : RegIndex} (ra rb : RegIndex) (h : s.reg rc = 0#16) :
    exec (.div ra.toWord rb.toWord rc.toWord) s = .next (s.raise ⟨.divisionByZero, 0#16⟩) :=
  settle_formRRR_toWord_error ra (by rw [h, quotient_zero])

/-- Settles O8: the result is the sum of two Words, and the form reports the first bad index. -/
theorem addWritesSum : Obligations.AddWritesSum :=
  ⟨fun s ra rb rc => ⟨_, BitVec.toNat_add _ _, exec_add_toWord s ra rb rc⟩,
    fun s _ _ _ _ => settle_formRRR_of_firstBadIndex _ s⟩

/-- Settles O9: the result is the product of two Words, and the form reports the first bad index. -/
theorem mulWritesLowProduct : Obligations.MulWritesLowProduct :=
  ⟨fun s ra rb rc => ⟨_, BitVec.toNat_mul _ _, exec_mul_toWord s ra rb rc⟩,
    fun s _ _ _ _ => settle_formRRR_of_firstBadIndex _ s⟩

/-- Settles O10: the result is the difference of two Words, which is `wrap16` of the difference of the integers. -/
theorem subWritesDifference : Obligations.SubWritesDifference := by
  refine ⟨fun s ra rb rc => ⟨_, ?_, exec_sub_toWord s ra rb rc⟩, fun s _ _ _ _ => settle_formRRR_of_firstBadIndex _ s⟩
  rw [← wrap16_sub]
  exact toNat_wrap16 _

/-- Settles O11: the divisor decides between the quotient and the fault, after the form's register checks. -/
theorem divWritesQuotientOrFaults : Obligations.DivWritesQuotientOrFaults :=
  ⟨fun _ ra rb _ h => ⟨_, BitVec.toNat_udiv, exec_div_toWord ra rb h⟩,
    fun _ ra rb _ h => exec_div_toWord_zero ra rb h,
    fun s _ _ _ _ => settle_formRRR_of_firstBadIndex _ s⟩

/-! ### Two steps, ADD and then SUB -/

/-- The step of an instruction whose handler writes one register: that write, then the advance (R112, R118). -/
theorem step_of_exec_setReg {s : State} {w : InstrWords} {r : RegIndex} {v : Word} (hw : standsAt s w)
    (he : exec (decode w) s = .next (s.setReg r v)) : step s = .next (advancePc (s.setReg r v)) := by
  have hrun : (s.setReg r v).run = .running := hw.1
  rw [step_of_standsAt hw he, afterHandler_of_running hrun]

/-- Settles O47: neither advance touches `x[i]` or `x[k]`, and the first write leaves `x[k]`, so SUB takes away the very
word ADD added. -/
theorem addThenSubRestores : Obligations.AddThenSubRestores := by
  intro s t u i j k hik hi hk hs hst ht htu
  have hrun : t.run = .running := ht.1
  rw [step_of_exec_setReg hs (exec_add_toWord s i j k)] at hst
  rw [step_of_exec_setReg ht (exec_sub_toWord t i i k)] at htu
  cases htu
  refine ⟨hrun, ?_⟩
  cases hst
  have hsum : (advancePc (s.setReg i (s.reg j + s.reg k))).reg i = s.reg j + s.reg k := by simp [hi]
  have hkeep : (advancePc (s.setReg i (s.reg j + s.reg k))).reg k = s.reg k := by simp [hk, hik.symm]
  rw [advancePc_reg_ne _ _ hi, State.reg_setReg_same, hsum, hkeep, BitVec.add_sub_cancel]

end Sys2Proof.Machine

/-! SUPPORT. The data transfer family: a handler that begins with a register check, and the results of COP, AFC and
LOAD on register operands; that of STR stands with the memory family. -/

namespace Sys2Proof.Machine

/-! ### A handler that begins with a register check -/

theorem settle_regIdx_toWord (s : State) (r : RegIndex) (k : RegIndex → Except FaultRecord State) :
    settle s (regIdx r.toWord >>= k) = settle s (k r) := by
  rw [regIdx_toWord]; rfl

/-- The check of an operand above 15 ends the handler, whatever it would have done next (R121, R247). -/
theorem settle_regIdx_of_le (s : State) {w : Word} (k : RegIndex → Except FaultRecord State) (h : 16 ≤ w.toNat) :
    settle s (regIdx w >>= k) = .next (s.raise ⟨.registerIndexOutOfRange, w⟩) := by
  rw [regIdx_error h]; rfl

/-! ### COP, AFC and LOAD -/

theorem exec_cop_toWord (s : State) (ra rb : RegIndex) (c : Word) :
    exec (.cop ra.toWord rb.toWord c) s = .next (s.setReg ra (s.reg rb)) :=
  (settle_regIdx_toWord s ra _).trans (settle_regIdx_toWord s rb _)

/-- COP faults on the first of its two register operands above 15. -/
theorem exec_cop_of_firstBadIndex (s : State) {a b w : Word} (c : Word) (h : firstBadIndex [a, b] = some w) :
    exec (.cop a b c) s = .next (s.raise ⟨.registerIndexOutOfRange, w⟩) := by
  rcases regIdx_cases a with ⟨ra, rfl, -⟩ | ⟨ha, -⟩
  · rw [firstBadIndex_toWord_cons] at h
    rcases regIdx_cases b with ⟨rb, rfl, -⟩ | ⟨hb, -⟩
    · rw [firstBadIndex_toWord_cons] at h; cases h
    · rw [firstBadIndex_cons_of_le _ hb] at h; cases h
      exact (settle_regIdx_toWord s ra _).trans (settle_regIdx_of_le s _ hb)
  · rw [firstBadIndex_cons_of_le _ ha] at h; cases h
    exact settle_regIdx_of_le s _ ha

theorem exec_afc_toWord (s : State) (ra : RegIndex) (b c : Word) :
    exec (.afc ra.toWord b c) s = .next (s.setReg ra b) :=
  settle_regIdx_toWord s ra _

/-- With a register for `a`, LOAD is left to its memory read (R163). -/
theorem exec_load_toWord (s : State) (ra : RegIndex) (b c : Word) :
    exec (.load ra.toWord b c) s = settle s (memRead s b >>= fun v => pure (s.setReg ra v)) :=
  settle_regIdx_toWord s ra _

/-- Settles O12: both checks pass and the copy is written, or the first bad index is reported. -/
theorem copCopiesRegister : Obligations.CopCopiesRegister :=
  ⟨exec_cop_toWord, fun s _ _ c _ => exec_cop_of_firstBadIndex s c⟩

/-- Settles O13: the check of `a` is the only one, and the immediate is written as it stands. -/
theorem afcLoadsImmediate : Obligations.AfcLoadsImmediate :=
  ⟨exec_afc_toWord, fun s _ _ _ => settle_regIdx_of_le s _⟩

/-- Settles O14: past the check of `a` the memory read decides between its word and its fault. -/
theorem loadReadsMemoryWord : Obligations.LoadReadsMemoryWord := by
  refine ⟨fun s ra b c hb => ?_, fun s ra c => ?_, fun s _ _ _ => settle_regIdx_of_le s _⟩
  · rw [exec_load_toWord, memRead_ok hb]; rfl
  · rw [exec_load_toWord, memRead_error]; rfl

/-- Settles O15: past the check of `b` the memory write leaves `s.setMem a x[b]`, or faults at the last Word. -/
theorem strWritesMemoryWord : Obligations.StrWritesMemoryWord := by
  refine ⟨fun s rb a c ha => ?_, fun s rb c => ?_, fun s _ _ _ => settle_regIdx_of_le s _⟩
  · exact ⟨s.setMem a (s.reg rb), exec_str_toWord s rb c ha, Memory.read_write_same _ _ _,
      fun _ hn => Memory.read_write_ne _ _ hn, rfl, rfl, rfl⟩
  · exact (settle_regIdx_toWord s rb _).trans (congrArg (settle s) (memWrite_error s _))

end Sys2Proof.Machine

/-! SUPPORT. The comparison family: the Word of a truth value and of its negation, and what each of the five comparisons
leaves on register operands. -/

namespace Sys2Proof.Machine

/-! ### The Word of a truth value -/

theorem truthWord_decide (p : Prop) [Decidable p] : truthWord (decide p) = if p then 1#16 else 0#16 := by
  by_cases hp : p
  · rw [if_pos hp, decide_eq_true hp]; rfl
  · rw [if_neg hp, decide_eq_false hp]; rfl

/-- One of a truth value and its negation is written as 1, the other as 0 (R180). -/
theorem toNat_truthWord_add_not (holds : Bool) : (truthWord holds).toNat + (truthWord !holds).toNat = 1 := by
  cases holds <;> rfl

/-- Of two relations that exclude each other and leave no third case, one is written as 1 and the other as 0 (R186). -/
theorem toNat_truthWord_add_of_iff_not {p q : Prop} [Decidable p] [Decidable q] (h : q ↔ ¬ p) :
    (truthWord (decide p)).toNat + (truthWord (decide q)).toNat = 1 := by
  rw [decide_eq_decide.mpr h, decide_not]
  exact toNat_truthWord_add_not _

/-! ### EQU, INF, INFE, SUP and SUPE on register operands -/

theorem exec_equ_toWord (s : State) (ra rb rc : RegIndex) : exec (.equ ra.toWord rb.toWord rc.toWord) s =
    .next (s.setReg ra (truthWord (decide ((s.reg rb).toNat = (s.reg rc).toNat)))) :=
  settle_formRRR_toWord_ok ra rfl

theorem exec_inf_toWord (s : State) (ra rb rc : RegIndex) : exec (.inf ra.toWord rb.toWord rc.toWord) s =
    .next (s.setReg ra (truthWord (decide ((s.reg rb).toNat < (s.reg rc).toNat)))) :=
  settle_formRRR_toWord_ok ra rfl

theorem exec_infe_toWord (s : State) (ra rb rc : RegIndex) : exec (.infe ra.toWord rb.toWord rc.toWord) s =
    .next (s.setReg ra (truthWord (decide ((s.reg rb).toNat ≤ (s.reg rc).toNat)))) :=
  settle_formRRR_toWord_ok ra rfl

theorem exec_sup_toWord (s : State) (ra rb rc : RegIndex) : exec (.sup ra.toWord rb.toWord rc.toWord) s =
    .next (s.setReg ra (truthWord (decide ((s.reg rb).toNat > (s.reg rc).toNat)))) :=
  settle_formRRR_toWord_ok ra rfl

theorem exec_supe_toWord (s : State) (ra rb rc : RegIndex) : exec (.supe ra.toWord rb.toWord rc.toWord) s =
    .next (s.setReg ra (truthWord (decide ((s.reg rb).toNat ≥ (s.reg rc).toNat)))) :=
  settle_formRRR_toWord_ok ra rfl

/-- The five comparisons are of the form `RRR`, so they fault on the first operand above 15 (R180). -/
theorem exec_comparison_of_firstBadIndex {i : Instr} (s : State) {a b c w : Word}
    (hi : i ∈ [Instr.equ a b c, .inf a b c, .infe a b c, .sup a b c, .supe a b c])
    (h : firstBadIndex [a, b, c] = some w) : exec i s = .next (s.raise ⟨.registerIndexOutOfRange, w⟩) := by
  simp only [List.mem_cons, List.not_mem_nil, or_false] at hi
  rcases hi with rfl | rfl | rfl | rfl | rfl <;> exact settle_formRRR_of_firstBadIndex _ s h

/-- Settles O16: the Word written is that of the relation, and the form reports the first bad index. -/
theorem comparisonsWriteTruth : Obligations.ComparisonsWriteTruth := by
  refine ⟨fun s ra rb rc => ?_, fun s _ _ _ _ _ => exec_comparison_of_firstBadIndex s⟩
  simp only [← truthWord_decide]
  exact ⟨exec_equ_toWord s ra rb rc, exec_inf_toWord s ra rb rc, exec_infe_toWord s ra rb rc,
    exec_sup_toWord s ra rb rc, exec_supe_toWord s ra rb rc⟩

/-- Settles O49: `≥` is the negation of `<` and `>` that of `≤`, and exchanging the sources turns `>` into `<` and `≥`
into `≤`. -/
theorem comparisonsAreComplementary : Obligations.ComparisonsAreComplementary := fun s ra rb rc =>
  ⟨⟨_, _, exec_inf_toWord s ra rb rc, exec_supe_toWord s ra rb rc, toNat_truthWord_add_of_iff_not Nat.not_lt.symm⟩,
    ⟨_, _, exec_infe_toWord s ra rb rc, exec_sup_toWord s ra rb rc, toNat_truthWord_add_of_iff_not Nat.not_le.symm⟩,
    (exec_sup_toWord s ra rb rc).trans (exec_inf_toWord s ra rc rb).symm,
    (exec_supe_toWord s ra rb rc).trans (exec_infe_toWord s ra rc rb).symm⟩

end Sys2Proof.Machine

/-! SUPPORT. The control transfer family: where the step of a completed handler leaves the PC, the two jumps, what the
nine three-register instructions write, and register 15 as destination and as source. -/

namespace Sys2Proof.Machine

/-! ### The PC at the end of a step -/

theorem toNat_pc_advancePc (u : State) : (advancePc u).pc.toNat = (u.pc.toNat + 4) % 65536 := by
  have h := toNat_wrap16 ((u.pc.toNat : Int) + 4)
  rw [advancePc_pc]; omega

theorem advancePc_sp (u : State) : (advancePc u).sp = u.sp := advancePc_reg_ne u 14 (by decide)

theorem sp_setReg_pc (s : State) (v : Word) : (s.setReg 15 v).sp = s.sp := State.reg_setReg_ne s 15 14 v (by decide)

theorem pc_setReg_pc (s : State) (v : Word) : (s.setReg 15 v).pc = v := State.reg_setReg_same s 15 v

/-- The step of an instruction whose handler completes: what the handler left, then the advance (R112, R118). -/
theorem step_of_exec_running {s u : State} {w : InstrWords} (hw : standsAt s w) (he : exec (decode w) s = .next u)
    (hr : u.run = .running) : step s = .next (advancePc u) := by
  rw [step_of_standsAt hw he, afterHandler_of_running hr]

/-- The advance adds 4 to a register the handler wrote exactly when that register is the PC (R118, R203). -/
theorem toNat_reg_advancePc_setReg (s : State) (r : RegIndex) (v : Word) :
    ((advancePc (s.setReg r v)).reg r).toNat = if r = 15 then (v.toNat + 4) % 65536 else v.toNat := by
  split
  case isTrue h =>
    subst h
    exact (toNat_pc_advancePc _).trans (by rw [pc_setReg_pc])
  case isFalse h => rw [advancePc_reg_ne _ _ h, State.reg_setReg_same]

/-- The step of an instruction whose handler writes one register ends with the value in that register, with 4 more
where the register is the PC. -/
theorem exists_step_reg_of_exec_setReg {s : State} {w : InstrWords} {r : RegIndex} {v : Word} (hw : standsAt s w)
    (he : exec (decode w) s = .next (s.setReg r v)) :
    ∃ t, step s = .next t ∧ (t.reg r).toNat = if r = 15 then (v.toNat + 4) % 65536 else v.toNat :=
  ⟨_, step_of_exec_setReg hw he, toNat_reg_advancePc_setReg s r v⟩

/-- The step of an instruction whose handler writes the PC transfers control to the value written plus 4 (R203). -/
theorem exists_step_pc_of_exec_setReg {s : State} {w : InstrWords} {v : Word} (hw : standsAt s w)
    (he : exec (decode w) s = .next (s.setReg 15 v)) :
    ∃ t, step s = .next t ∧ t.pc.toNat = (v.toNat + 4) % 65536 :=
  exists_step_reg_of_exec_setReg hw he

/-! ### JMP and JMPC -/

theorem toNat_jumpCompensated (a : Word) : ((jumpCompensated a).toNat : Int) = ((a.toNat : Int) - 4) % 65536 :=
  toNat_wrap16 _

/-- The engine's advance completes the jump a handler compensated for (R200). -/
theorem advancePc_setReg_jumpCompensated (s : State) (a : Word) :
    advancePc (s.setReg 15 (jumpCompensated a)) = s.setReg 15 a := by
  rw [advancePc, Config.pcIndex_eq, State.setReg_setReg, pc_setReg_pc]
  exact congrArg (s.setReg 15) (wrap16_jumpCompensated_add a)

/-- The step of a handler that jumps to `a` ends at `a`. -/
theorem step_of_exec_jump {s : State} {w : InstrWords} {a : Word} (hw : standsAt s w)
    (he : exec (decode w) s = .next (s.setReg 15 (jumpCompensated a))) : step s = .next (s.setReg 15 a) := by
  rw [step_of_exec_setReg hw he, advancePc_setReg_jumpCompensated]

/-- Settles O17: the handler leaves the compensated target, which the advance turns into the target. -/
theorem jmpReachesTarget : Obligations.JmpReachesTarget :=
  ⟨fun _ a _ _ => ⟨jumpCompensated a, toNat_jumpCompensated a, rfl⟩, fun _ _ _ _ hw => step_of_exec_jump hw rfl⟩

/-- Past its register check JMPC is decided by the whole condition register (R202). -/
theorem exec_jmpc_toWord (s : State) (rb : RegIndex) (a c : Word) :
    exec (.jmpc a rb.toWord c) s = .next (if s.reg rb = 0#16 then s.setReg 15 (jumpCompensated a) else s) :=
  settle_regIdx_toWord s rb _

theorem exec_jmpc_of_zero {s : State} {rb : RegIndex} (a c : Word) (h : s.reg rb = 0#16) :
    exec (.jmpc a rb.toWord c) s = .next (s.setReg 15 (jumpCompensated a)) := by
  rw [exec_jmpc_toWord, if_pos h]

theorem exec_jmpc_of_ne_zero {s : State} {rb : RegIndex} (a c : Word) (h : s.reg rb ≠ 0#16) :
    exec (.jmpc a rb.toWord c) s = .next s := by
  rw [exec_jmpc_toWord, if_neg h]

/-- Settles O18: a jump taken is that of JMP, a jump not taken leaves only the advance, and the register check comes
before both. -/
theorem jmpcJumpsOnZero : Obligations.JmpcJumpsOnZero :=
  ⟨fun _ _ a c h => ⟨jumpCompensated a, toNat_jumpCompensated a, exec_jmpc_of_zero a c h⟩,
    fun _ _ a c h => exec_jmpc_of_ne_zero a c h,
    fun s _ _ _ => settle_regIdx_of_le s _,
    fun _ _ a c hw h => step_of_exec_jump hw (exec_jmpc_of_zero a c h),
    fun s _ a c hw h => (stepRunsDecodedInstruction s s _ hw (exec_jmpc_of_ne_zero a c h)).1 hw.1⟩

/-! ### The nine three-register instructions -/

theorem toNat_truthWord_decide (p : Prop) [Decidable p] : (truthWord (decide p)).toNat = if p then 1 else 0 := by
  rw [truthWord_decide, apply_ite BitVec.toNat]; rfl

/-- DIV has a result exactly when the divisor is not zero (R144). -/
theorem resultRRR_div_eq_some {a b c x y : Word} {v : Nat} :
    resultRRR (.div a b c) x y = some v ↔ y ≠ 0#16 ∧ x.toNat / y.toNat = v := by
  have hy : y.toNat = 0 ↔ y = 0#16 := by bv_omega
  simp [resultRRR, hy]

/-- A three-register instruction that has a result for its sources writes that result to its destination. -/
theorem exec_instrsRRR {i : Instr} {s : State} {ra rb rc : RegIndex} {v : Nat}
    (hi : i ∈ instrsRRR ra.toWord rb.toWord rc.toWord) (hv : resultRRR i (s.reg rb) (s.reg rc) = some v) :
    ∃ u : Word, u.toNat = v ∧ exec i s = .next (s.setReg ra u) := by
  simp only [instrsRRR, List.mem_cons, List.not_mem_nil, or_false] at hi
  rcases hi with rfl | rfl | rfl | rfl | rfl | rfl | rfl | rfl | rfl
  · cases hv; exact ⟨_, BitVec.toNat_add _ _, exec_add_toWord s ra rb rc⟩
  · cases hv; exact ⟨_, BitVec.toNat_mul _ _, exec_mul_toWord s ra rb rc⟩
  · cases hv; exact ⟨_, by bv_omega, exec_sub_toWord s ra rb rc⟩
  · obtain ⟨hc, hquot⟩ := resultRRR_div_eq_some.mp hv
    exact ⟨_, BitVec.toNat_udiv.trans hquot, exec_div_toWord ra rb hc⟩
  · cases hv; exact ⟨_, toNat_truthWord_decide _, exec_equ_toWord s ra rb rc⟩
  · cases hv; exact ⟨_, toNat_truthWord_decide _, exec_inf_toWord s ra rb rc⟩
  · cases hv; exact ⟨_, toNat_truthWord_decide _, exec_infe_toWord s ra rb rc⟩
  · cases hv; exact ⟨_, toNat_truthWord_decide _, exec_sup_toWord s ra rb rc⟩
  · cases hv; exact ⟨_, toNat_truthWord_decide _, exec_supe_toWord s ra rb rc⟩

theorem wellFormed_of_mem_instrsRRR {i : Instr} {a b c : Word} (hi : i ∈ instrsRRR a b c) : i.wellFormed = true := by
  simp only [instrsRRR, List.mem_cons, List.not_mem_nil, or_false] at hi
  rcases hi with rfl | rfl | rfl | rfl | rfl | rfl | rfl | rfl | rfl <;> rfl

/-- The step of a three-register instruction ends with its result in the destination, with 4 more where that is the
PC. -/
theorem exists_step_reg_of_instrsRRR {i : Instr} {s : State} {ra rb rc : RegIndex} {v : Nat}
    (hi : i ∈ instrsRRR ra.toWord rb.toWord rc.toWord) (hw : standsAt s (encode i))
    (hv : resultRRR i (s.reg rb) (s.reg rc) = some v) :
    ∃ t, step s = .next t ∧ (t.reg ra).toNat = if ra = 15 then (v + 4) % 65536 else v := by
  obtain ⟨u, rfl, hu⟩ := exec_instrsRRR hi hv
  rw [← decode_encode (wellFormed_of_mem_instrsRRR hi)] at hu
  exact exists_step_reg_of_exec_setReg hw hu

/-- The opcodes 0x0009 to 0x000D are the comparisons, which write a truth value whatever their sources (R180). -/
theorem exec_comparison_toWord {op : Word} (s : State) (ra rb rc : RegIndex) (hlo : 0x0009 ≤ op.toNat)
    (hhi : op.toNat ≤ 0x000D) :
    ∃ holds, exec (decode ⟨op, ra.toWord, rb.toWord, rc.toWord⟩) s = .next (s.setReg ra (truthWord holds)) := by
  have hop : op = 9#16 ∨ op = 10#16 ∨ op = 11#16 ∨ op = 12#16 ∨ op = 13#16 := by bv_omega
  rcases hop with rfl | rfl | rfl | rfl | rfl
  · exact ⟨_, exec_equ_toWord s ra rb rc⟩
  · exact ⟨_, exec_inf_toWord s ra rb rc⟩
  · exact ⟨_, exec_infe_toWord s ra rb rc⟩
  · exact ⟨_, exec_sup_toWord s ra rb rc⟩
  · exact ⟨_, exec_supe_toWord s ra rb rc⟩

/-! ### Register 15 as destination -/

/-- POP with SP inside memory writes the word at SP to its register and then adds 1 to the SP it finds (R221). -/
theorem exec_pop_toWord {s : State} (ra : RegIndex) (b c : Word) (hsp : s.sp ≠ 65535#16) :
    exec (.pop ra.toWord b c) s = .next ((s.setReg ra (Memory.read s.mem s.sp.toNat)).setReg 14
      ((s.setReg ra (Memory.read s.mem s.sp.toNat)).sp + 1#16)) := by
  rw [← wrap16_add]
  exact (settle_regIdx_toWord s ra _).trans (congrArg (settle s) (bind_eq_ok.mpr ⟨_, memRead_ok hsp, rfl⟩))

/-- POP R15 transfers control to the popped word plus 4 and raises SP by 1 (R203). -/
theorem exists_step_of_pop_pc {s : State} {b c : Word} (hw : standsAt s ⟨0x0010, 15, b, c⟩) (hsp : s.sp ≠ 65535#16) :
    ∃ t, step s = .next t ∧ t.pc.toNat = ((Memory.read s.mem s.sp.toNat).toNat + 4) % 65536 ∧
      t.sp.toNat = s.sp.toNat + 1 := by
  refine ⟨_, step_of_exec_running hw (exec_pop_toWord 15 b c hsp) hw.1, ?_, ?_⟩
  · rw [toNat_pc_advancePc]
    simp [State.pc]
  · rw [advancePc_sp, State.sp, Config.spIndex_eq, State.reg_setReg_same, sp_setReg_pc]
    bv_omega

/-- Settles O35: each handler writes the PC and nothing moves it but the advance. -/
theorem writingThePcTransfersControl : Obligations.WritingThePcTransfersControl := by
  refine ⟨fun s b c hw => exists_step_pc_of_exec_setReg hw (exec_afc_toWord s 15 b c),
    fun s rb c hw => exists_step_pc_of_exec_setReg hw (exec_cop_toWord s 15 rb c),
    fun s b c hw hb => exists_step_pc_of_exec_setReg hw (loadReadsMemoryWord.1 s 15 b c hb),
    fun s b c hw hsp => exists_step_of_pop_pc hw hsp, fun s rb rc hw => ?_,
    fun i s rb rc v hi hw hv => exists_step_reg_of_instrsRRR (ra := 15) hi hw hv, fun s op rb rc hlo hhi hw => ?_⟩
  · obtain ⟨t, ht, hpc⟩ := exists_step_pc_of_exec_setReg hw (exec_add_toWord s 15 rb rc)
    exact ⟨t, ht, by rw [hpc, BitVec.toNat_add, Nat.mod_add_mod]⟩
  · obtain ⟨holds, he⟩ := exec_comparison_toWord s 15 rb rc hlo hhi
    obtain ⟨t, ht, hpc⟩ := exists_step_pc_of_exec_setReg hw he
    refine ⟨t, ht, ?_⟩
    cases holds with
    | false => exact .inl hpc
    | true => exact .inr hpc

/-! ### Register 15 as source -/

/-- The PC is register 15 (R25). -/
theorem ite_pc_eq_reg (s : State) (r : RegIndex) : (if r = 15 then s.pc else s.reg r) = s.reg r := by
  split
  case isTrue h => rw [h]; rfl
  case isFalse => rfl

/-- The step of a handler that stores a word leaves it in memory. -/
theorem exists_step_read_of_exec_setMem {s s' : State} {w : InstrWords} {addr v : Word} (hw : standsAt s w)
    (he : exec (decode w) s = .next (s'.setMem addr v)) :
    ∃ t, step s = .next t ∧ Memory.read t.mem addr.toNat = v :=
  ⟨_, step_of_standsAt hw he, read_of_step_store hw he (step_of_standsAt hw he)⟩

/-- JMPC on the PC is taken exactly at address 0 (R204). -/
theorem exists_step_of_jmpc_pc {s : State} {a c : Word} (hw : standsAt s ⟨0x000F, a, 15, c⟩) :
    ∃ t, step s = .next t ∧ t.pc.toNat = if s.pc = 0#16 then a.toNat else (s.pc.toNat + 4) % 65536 := by
  obtain ⟨-, -, -, htaken, hnot⟩ := jmpcJumpsOnZero
  by_cases h : s.pc = 0#16
  · exact ⟨_, htaken s 15 a c hw h, by rw [if_pos h, pc_setReg_pc]⟩
  · obtain ⟨v, hv, hstep⟩ := hnot s 15 a c hw h
    exact ⟨_, hstep, by rw [if_neg h, ← hv, pc_setReg_pc]⟩

/-- Settles O36: every source is read before the advance, so register 15 reads as the address of the instruction. -/
theorem readingThePcGivesOwnAddress : Obligations.ReadingThePcGivesOwnAddress := by
  refine ⟨fun s ra c hw => exists_step_reg_of_exec_setReg hw (exec_cop_toWord s ra 15 c),
    fun i s ra rb rc v hi hw _ hv => ?_, fun s ra rb hw hpc => ?_,
    fun s a c hw ha => exists_step_read_of_exec_setMem hw (exec_str_toWord s 15 c ha), fun s b c hw hsp => ?_,
    fun s a c hw => exists_step_of_jmpc_pc hw⟩
  · rw [ite_pc_eq_reg, ite_pc_eq_reg] at hv
    exact exists_step_reg_of_instrsRRR hi hw hv
  · have hraise : (s.raise ⟨.divisionByZero, 0#16⟩).run ≠ .running := by simp
    exact (stepRunsDecodedInstruction s _ _ hw (exec_div_toWord_zero (rc := 15) ra rb hpc)).2 hraise
  · rw [← toNat_pushAddress hsp]
    exact exists_step_read_of_exec_setMem hw (exec_push_toWord 15 b c hsp)

end Sys2Proof.Machine

/-! SUPPORT. The stack family: PUSH with nowhere to store, the two forms of POP, and what the steps of a PUSH and of a
POP leave. -/

namespace Sys2Proof.Machine

/-- A check that raised ends the handler, whatever it would have done next (R246). -/
theorem settle_bind_of_error {α : Type} {s : State} {x : Except FaultRecord α} {f : FaultRecord}
    (k : α → Except FaultRecord State) (h : x = .error f) : settle s (x >>= k) = .next (s.raise f) := by
  rw [h]; rfl

/-! ### POP -/

/-- POP to a register other than SP raises the SP it started from (R221). -/
theorem exec_pop_toWord_of_ne_sp {s : State} {ra : RegIndex} (b c : Word) (hra : ra ≠ 14) (hsp : s.sp ≠ 65535#16) :
    exec (.pop ra.toWord b c) s =
      .next ((s.setReg ra (Memory.read s.mem s.sp.toNat)).setReg 14 (s.sp + 1#16)) := by
  have hkeep : (s.setReg ra (Memory.read s.mem s.sp.toNat)).sp = s.sp := State.reg_setReg_ne _ _ _ _ hra.symm
  rw [exec_pop_toWord ra b c hsp, hkeep]

/-- POP R14 raises the popped word, which its first assignment put into SP (R221). -/
theorem exec_pop_sp {s : State} (b c : Word) (hsp : s.sp ≠ 65535#16) :
    exec (.pop 14 b c) s = .next (s.setReg 14 (Memory.read s.mem s.sp.toNat + 1#16)) := by
  have hpopped : (s.setReg 14 (Memory.read s.mem s.sp.toNat)).sp = Memory.read s.mem s.sp.toNat :=
    State.reg_setReg_same _ _ _
  refine (exec_pop_toWord 14 b c hsp).trans ?_
  rw [hpopped, State.setReg_setReg]

/-- POP at the word above memory faults there (R221, R243). -/
theorem exec_pop_toWord_of_last {s : State} (ra : RegIndex) (b c : Word) (hsp : s.sp = 65535#16) :
    exec (.pop ra.toWord b c) s = .next (s.raise ⟨.memoryAddressOutOfRange, 65535#16⟩) :=
  (settle_regIdx_toWord s ra _).trans (settle_bind_of_error _ (by rw [hsp, memRead_error]))

/-- Settles O19: the second assignment reads the SP the first one left, which is the popped word exactly for POP R14;
the register check comes before the memory check. -/
theorem popReadsAndIncrements : Obligations.PopReadsAndIncrements :=
  ⟨fun _ _ b c hra hsp => ⟨_, BitVec.toNat_add _ _, exec_pop_toWord_of_ne_sp b c hra hsp⟩,
    fun _ b c hsp => ⟨_, BitVec.toNat_add _ _, exec_pop_sp b c hsp⟩,
    fun _ ra b c hsp => exec_pop_toWord_of_last ra b c hsp,
    fun s _ _ _ => settle_regIdx_of_le s _⟩

/-! ### PUSH -/

/-- PUSH with SP 0 faults at 65535, one below it modulo 65536, and leaves SP as it was (R222). -/
theorem exec_push_toWord_of_zero {s : State} (ra : RegIndex) (b c : Word) (hsp : s.sp = 0#16) :
    exec (.push ra.toWord b c) s = .next (s.raise ⟨.memoryAddressOutOfRange, 65535#16⟩) :=
  (settle_regIdx_toWord s ra _).trans
    (settle_bind_of_error _ (by rw [(pushAddress_eq_last s).mpr hsp, checkDataAddress_error]))

/-- Settles O20: the handler lowers SP and stores there, so the rest is reading from that state; the register check
comes before the memory check. -/
theorem pushDecrementsAndWrites : Obligations.PushDecrementsAndWrites := by
  refine ⟨fun s ra b c hsp => ?_, fun _ ra b c hsp => exec_push_toWord_of_zero ra b c hsp,
    fun s _ _ _ => settle_regIdx_of_le s _⟩
  have haddr : (pushAddress s).toNat + 1 = (s.reg 14).toNat := by
    rw [pushAddress_eq, State.sp, Config.spIndex_eq]; bv_omega
  exact ⟨pushAddress s, _, haddr, exec_push_toWord ra b c hsp, Memory.read_write_same _ _ _,
    fun _ hn => Memory.read_write_ne _ _ hn, State.reg_setReg_same _ _ _,
    fun _ hr => State.reg_setReg_ne _ _ _ _ hr, rfl, rfl⟩

/-! ### Two steps, PUSH and then POP -/

/-- A step of PUSH of a register other than SP ends with SP at the word it stored (R222). -/
theorem sp_and_read_of_step_push {s t : State} {r : RegIndex} {b c : Word} (hr : r ≠ 14) (hsp : s.sp ≠ 0#16)
    (hw : standsAt s ⟨0x0011, r.toWord, b, c⟩) (h : step s = .next t) :
    t.sp = pushAddress s ∧ Memory.read t.mem (pushAddress s).toNat = s.reg r := by
  have he := exec_push_toWord r b c hsp
  rw [if_neg hr] at he
  refine ⟨?_, read_of_step_store hw he h⟩
  rw [step_of_exec_running hw he hw.1] at h
  cases h
  exact (advancePc_sp _).trans (State.reg_setReg_same _ _ _)

/-- A step of POP to a register other than SP and PC moves the word at SP there and raises SP (R221). -/
theorem sp_and_reg_of_step_pop {s t : State} {q : RegIndex} {b c : Word} (hq : q ≠ 14) (hq' : q ≠ 15)
    (hsp : s.sp ≠ 65535#16) (hw : standsAt s ⟨0x0010, q.toWord, b, c⟩) (h : step s = .next t) :
    t.run = .running ∧ t.sp = s.sp + 1#16 ∧ t.reg q = Memory.read s.mem s.sp.toNat ∧ t.mem = s.mem := by
  rw [step_of_exec_running hw (exec_pop_toWord_of_ne_sp b c hq hsp) hw.1] at h
  cases h
  refine ⟨hw.1, (advancePc_sp _).trans (State.reg_setReg_same _ _ _), ?_, rfl⟩
  rw [advancePc_reg_ne _ _ hq', State.reg_setReg_ne _ _ _ _ hq, State.reg_setReg_same]

/-- Settles O48: the PUSH leaves SP at the pushed word, inside memory, and the POP reads that word and takes back the
decrement without a store of its own. -/
theorem pushThenPopRestores : Obligations.PushThenPopRestores := by
  intro s t u r q b c b' c' hr hq hq' hsp hs hst ht htu
  obtain ⟨htsp, hpushed⟩ := sp_and_read_of_step_push hr hsp hs hst
  have hin : t.sp ≠ 65535#16 := htsp ▸ mt (pushAddress_eq_last s).mp hsp
  obtain ⟨hrun, husp, hpopped, hmem⟩ := sp_and_reg_of_step_pop hq hq' hin ht htu
  refine ⟨hrun, ?_, ?_, ?_⟩
  · rw [husp, htsp, pushAddress_eq, BitVec.sub_add_cancel]
  · rw [hpopped, htsp, hpushed]
  · rw [hmem, ← toNat_pushAddress hsp, hpushed]

end Sys2Proof.Machine

/-! SUPPORT. The exceptions family: what a handler does in each row of the table of faults, the step of a running
machine read off the fault of the step, and what the debug hook sees. -/

namespace Sys2Proof.Machine

/-! ### The register check -/

/-- No word is a bad index exactly when each names a register. -/
theorem firstBadIndex_cons_eq_none {w : Word} {ws : List Word} :
    firstBadIndex (w :: ws) = none ↔ (∃ r : RegIndex, w = r.toWord) ∧ firstBadIndex ws = none := by
  rcases regIdx_cases w with ⟨r, rfl, -⟩ | ⟨hw, -⟩
  · rw [firstBadIndex_toWord_cons]
    exact ⟨fun h => ⟨⟨r, rfl⟩, h⟩, And.right⟩
  · rw [firstBadIndex_cons_of_le ws hw]
    refine ⟨nofun, fun ⟨⟨r, hr⟩, _⟩ => ?_⟩
    rw [hr, RegIndex.toNat_toWord] at hw
    exact absurd r.isLt (Nat.not_lt.mpr hw)

/-- A handler with one register operand faults on it, whatever it would have done next (R121, R247). -/
theorem settle_regIdx_of_firstBadIndex {s : State} {a w : Word} (k : RegIndex → Except FaultRecord State)
    (h : firstBadIndex [a] = some w) : settle s (regIdx a >>= k) = .next (s.raise ⟨.registerIndexOutOfRange, w⟩) := by
  rcases regIdx_cases a with ⟨r, rfl, -⟩ | ⟨ha, -⟩
  · rw [firstBadIndex_toWord_cons] at h; cases h
  · rw [firstBadIndex_cons_of_le _ ha] at h; cases h
    exact settle_regIdx_of_le s k ha

/-! ### The rows of the table of faults -/

/-- A register operand above 15 faults, the first of them, before anything else is looked at (R244, R247). -/
theorem exec_of_firstBadIndex {i : Instr} {w : Word} (s : State) (h : firstBadIndex (registerWords i) = some w) :
    exec i s = .next (s.raise ⟨.registerIndexOutOfRange, w⟩) := by
  cases i with
  | cop a b c => exact exec_cop_of_firstBadIndex s c h
  | afc a b c => exact settle_regIdx_of_firstBadIndex _ h
  | load a b c => exact settle_regIdx_of_firstBadIndex _ h
  | str a b c => exact settle_regIdx_of_firstBadIndex _ h
  | jmp a b c => cases h
  | jmpc a b c => exact settle_regIdx_of_firstBadIndex _ h
  | pop a b c => exact settle_regIdx_of_firstBadIndex _ h
  | push a b c => exact settle_regIdx_of_firstBadIndex _ h
  | unmapped op a b c => cases h
  | _ a b c => exact settle_formRRR_of_firstBadIndex _ s h

/-- With register operands that name registers, a data address outside memory faults (R243, R247). -/
theorem exec_of_badDataAddress {i : Instr} {s : State} (hreg : firstBadIndex (registerWords i) = none)
    (haddr : badDataAddress i s = true) : exec i s = .next (s.raise ⟨.memoryAddressOutOfRange, 65535⟩) := by
  cases i with
  | load a b c =>
    obtain ⟨⟨ra, rfl⟩, -⟩ := firstBadIndex_cons_eq_none.mp hreg
    obtain rfl := of_decide_eq_true haddr
    obtain ⟨-, hlast, -⟩ := loadReadsMemoryWord
    exact hlast s ra c
  | str a b c =>
    obtain ⟨⟨rb, rfl⟩, -⟩ := firstBadIndex_cons_eq_none.mp hreg
    obtain rfl := of_decide_eq_true haddr
    obtain ⟨-, hlast, -⟩ := strWritesMemoryWord
    exact hlast s rb c
  | pop a b c =>
    obtain ⟨⟨ra, rfl⟩, -⟩ := firstBadIndex_cons_eq_none.mp hreg
    exact exec_pop_toWord_of_last ra b c (of_decide_eq_true haddr)
  | push a b c =>
    obtain ⟨⟨ra, rfl⟩, -⟩ := firstBadIndex_cons_eq_none.mp hreg
    exact exec_push_toWord_of_zero ra b c (of_decide_eq_true haddr)
  | _ => cases haddr

/-- With register operands that name registers, a zero divisor faults (R242, R247). -/
theorem exec_of_zeroDivisor {i : Instr} {s : State} (hreg : firstBadIndex (registerWords i) = none)
    (hdiv : zeroDivisor i s = true) : exec i s = .next (s.raise ⟨.divisionByZero, 0⟩) := by
  cases i with
  | div a b c =>
    obtain ⟨⟨ra, rfl⟩, hbc⟩ := firstBadIndex_cons_eq_none.mp hreg
    obtain ⟨⟨rb, rfl⟩, -⟩ := firstBadIndex_cons_eq_none.mp hbc
    obtain ⟨rc, rfl, hc⟩ := of_decide_eq_true hdiv
    exact exec_div_toWord_zero ra rb hc
  | _ => cases hdiv

/-- The form `RRR` completes, past its register checks, where its result function has a result. -/
theorem settle_formRRR_completes {f : Word → Word → Except FaultRecord Word} {s : State} {a b c : Word}
    (hreg : firstBadIndex [a, b, c] = none)
    (hf : ∀ rb rc : RegIndex, c = rc.toWord → ∃ v, f (s.reg rb) (s.reg rc) = .ok v) :
    ∃ t, settle s (formRRR f a b c s) = .next t ∧ t.fault = s.fault ∧ t.run = s.run := by
  simp only [firstBadIndex_cons_eq_none] at hreg
  obtain ⟨⟨ra, rfl⟩, ⟨rb, rfl⟩, ⟨rc, rfl⟩, -⟩ := hreg
  obtain ⟨v, hv⟩ := hf rb rc rfl
  exact ⟨_, settle_formRRR_toWord_ok ra hv, rfl, rfl⟩

/-- Where no row of the table applies the handler completes: the halt writes HALTED, and every other instruction leaves
`run` and the record (R115, R241). -/
theorem exec_completes {i : Instr} {s : State} (hreg : firstBadIndex (registerWords i) = none)
    (haddr : badDataAddress i s = false) (hdiv : zeroDivisor i s = false) :
    ∃ t, exec i s = .next t ∧ t.fault = s.fault ∧ t.run = (if i.isUnmapped then .halted else s.run) := by
  cases i with
  | div a b c =>
    refine settle_formRRR_completes hreg fun rb rc hc => ⟨_, quotient_of_ne_zero _ fun h => ?_⟩
    exact of_decide_eq_false hdiv ⟨rc, hc.symm, h⟩
  | cop a b c =>
    obtain ⟨⟨ra, rfl⟩, hb⟩ := firstBadIndex_cons_eq_none.mp hreg
    obtain ⟨⟨rb, rfl⟩, -⟩ := firstBadIndex_cons_eq_none.mp hb
    exact ⟨_, exec_cop_toWord s ra rb c, rfl, rfl⟩
  | afc a b c =>
    obtain ⟨⟨ra, rfl⟩, -⟩ := firstBadIndex_cons_eq_none.mp hreg
    exact ⟨_, exec_afc_toWord s ra b c, rfl, rfl⟩
  | load a b c =>
    obtain ⟨⟨ra, rfl⟩, -⟩ := firstBadIndex_cons_eq_none.mp hreg
    obtain ⟨hread, -⟩ := loadReadsMemoryWord
    exact ⟨_, hread s ra b c (of_decide_eq_false haddr), rfl, rfl⟩
  | str a b c =>
    obtain ⟨⟨rb, rfl⟩, -⟩ := firstBadIndex_cons_eq_none.mp hreg
    exact ⟨_, exec_str_toWord s rb c (of_decide_eq_false haddr), rfl, rfl⟩
  | jmp a b c => exact ⟨_, rfl, rfl, rfl⟩
  | jmpc a b c =>
    obtain ⟨⟨rb, rfl⟩, -⟩ := firstBadIndex_cons_eq_none.mp hreg
    by_cases hb : s.reg rb = 0#16
    · exact ⟨_, exec_jmpc_of_zero a c hb, rfl, rfl⟩
    · exact ⟨_, exec_jmpc_of_ne_zero a c hb, rfl, rfl⟩
  | pop a b c =>
    obtain ⟨⟨ra, rfl⟩, -⟩ := firstBadIndex_cons_eq_none.mp hreg
    exact ⟨_, exec_pop_toWord ra b c (of_decide_eq_false haddr), rfl, rfl⟩
  | push a b c =>
    obtain ⟨⟨ra, rfl⟩, -⟩ := firstBadIndex_cons_eq_none.mp hreg
    exact ⟨_, exec_push_toWord ra b c (of_decide_eq_false haddr), rfl, rfl⟩
  | unmapped op a b c => exact ⟨_, rfl, rfl, rfl⟩
  | _ a b c => exact settle_formRRR_completes hreg fun _ _ _ => ⟨_, rfl⟩

/-- Settles O27, by the rows of the table in their order. -/
theorem handlersFaultAsTheTableSays : Obligations.HandlersFaultAsTheTableSays := by
  intro i s
  unfold tableFault
  split
  next w hreg => exact ⟨fun | _, rfl => exec_of_firstBadIndex s hreg, nofun⟩
  next hreg =>
    split
    next haddr => exact ⟨fun | _, rfl => exec_of_badDataAddress hreg haddr, nofun⟩
    next haddr =>
      split
      next hdiv => exact ⟨fun | _, rfl => exec_of_zeroDivisor hreg hdiv, nofun⟩
      next hdiv =>
        exact ⟨nofun, fun _ => exec_completes hreg (Bool.eq_false_of_not_eq_true haddr)
          (Bool.eq_false_of_not_eq_true hdiv)⟩

/-! ### The step, by its fault -/

theorem stepFault_of_le {s : State} (h : s.pc.toNat ≤ 65531) : stepFault s = tableFault (decode (wordsAt s)) s :=
  if_pos h

theorem stepFault_of_lt {s : State} (h : 65531 < s.pc.toNat) : stepFault s = some ⟨.fetchOutOfRange, s.pc⟩ :=
  if_neg (Nat.not_le.mpr h)

/-- Settles O29: the fetch itself faults. -/
theorem fetchOutsideMemoryFaults : Obligations.FetchOutsideMemoryFaults :=
  fun _ => step_of_fetch_error

/-- A RUNNING machine takes the fault of the step and nothing else happens (R246, R247). -/
theorem step_of_stepFault {s : State} {f : FaultRecord} (hr : s.run = .running) (h : stepFault s = some f) :
    step s = .next (s.raise f) := by
  rcases Nat.lt_or_ge 65531 s.pc.toNat with hlt | hle
  · rw [stepFault_of_lt hlt] at h; cases h
    exact step_of_fetch_error hr hlt
  · rw [stepFault_of_le hle] at h
    exact step_of_standsAt ⟨hr, hle, rfl⟩ ((handlersFaultAsTheTableSays _ s).1 f h)

/-- A step to which no fault applies could be fetched, and its fault is that of the fetched instruction. -/
theorem stepFault_eq_none {s : State} (h : stepFault s = none) :
    s.pc.toNat ≤ 65531 ∧ tableFault (decode (wordsAt s)) s = none := by
  rcases Nat.lt_or_ge 65531 s.pc.toNat with hlt | hle
  · rw [stepFault_of_lt hlt] at h; cases h
  · exact ⟨hle, stepFault_of_le hle ▸ h⟩

theorem exec_of_isUnmapped {i : Instr} (s : State) (h : i.isUnmapped = true) : exec i s = .next s.halt := by
  cases i with
  | unmapped op a b c => rfl
  | _ => cases h

/-- Settles O28: a step whose fetch succeeds ends as its handler does, and the advance changes neither `run` nor the
record. -/
theorem stepEndsAsTheRunStateTableSays : Obligations.StepEndsAsTheRunStateTableSays := by
  refine fun s hr => ⟨fun f => step_of_stepFault hr, fun h hun => ?_, fun h hmap => ?_⟩
  · obtain ⟨hp, -⟩ := stepFault_eq_none h
    exact step_of_standsAt ⟨hr, hp, rfl⟩ (exec_of_isUnmapped s hun)
  · obtain ⟨hp, htable⟩ := stepFault_eq_none h
    obtain ⟨u, hu, hf, hrun⟩ := (handlersFaultAsTheTableSays _ s).2 htable
    rw [hmap, if_neg Bool.false_ne_true, hr] at hrun
    have hstep := step_of_standsAt ⟨hr, hp, rfl⟩ hu
    rw [afterHandler_of_running hrun] at hstep
    exact ⟨advancePc u, hstep, hrun, hf⟩

/-! ### What the hook sees -/

theorem observe_of_not_running {s : State} (h : s.run ≠ .running) : observe s = none := by
  unfold observe
  cases hr : s.run with
  | running => exact absurd hr h
  | halted => rfl
  | fatal => rfl

theorem observe_of_fetch_error {s : State} (h : 65531 < s.pc.toNat) : observe s = none := by
  unfold observe
  rw [fetch_error h]
  cases s.run <;> rfl

/-- The hook sees `u` exactly when the machine is RUNNING, the fetch succeeds, and the handler completes in `u` (R264,
R265). -/
theorem observe_eq_some_iff {s u : State} : observe s = some u ↔
    standsAt s (wordsAt s) ∧ exec (decode (wordsAt s)) s = .next u ∧ u.run = .running := by
  constructor
  · intro h
    by_cases hr : s.run = .running
    · rcases Nat.lt_or_ge 65531 s.pc.toNat with hlt | hle
      · rw [observe_of_fetch_error hlt] at h; cases h
      · have hw : standsAt s (wordsAt s) := ⟨hr, hle, rfl⟩
        obtain ⟨t, ht, -⟩ := exec_result (decode (wordsAt s)) s
        rw [observe_of_standsAt hw ht, Option.ite_none_right_eq_some, Option.some.injEq] at h
        obtain ⟨hrun, rfl⟩ := h
        exact ⟨hw, ht, hrun⟩
    · rw [observe_of_not_running hr] at h; cases h
  · rintro ⟨hw, hu, hrun⟩
    rw [observe_of_standsAt hw hu, if_pos hrun]

/-- A step in which the hook saw `u` ends with the advance from `u` (R116, R118). -/
theorem step_of_observe {s u : State} (h : observe s = some u) : step s = .next (advancePc u) := by
  obtain ⟨hw, hu, hrun⟩ := observe_eq_some_iff.mp h
  exact step_of_exec_running hw hu hrun

/-- A step that does not end RUNNING shows the hook nothing (R264, D14). -/
theorem observe_eq_none_of_step {s t : State} (h : step s = .next t) (ht : t.run ≠ .running) : observe s = none := by
  refine Option.eq_none_iff_forall_ne_some.mpr fun u hu => ht ?_
  obtain ⟨-, -, hrun⟩ := observe_eq_some_iff.mp hu
  rw [step_of_observe hu] at h
  cases h
  exact hrun

/-- Settles O39: the hook sees what a completed handler left, and the advance is all that follows. -/
theorem hookSeesEveryCompletedInstruction : Obligations.HookSeesEveryCompletedInstruction := by
  refine ⟨fun s u h => ?_, fun s t h ht => ?_, fun s t => observe_eq_none_of_step⟩
  · obtain ⟨-, -, hrun⟩ := observe_eq_some_iff.mp h
    obtain ⟨v, hv, hadv⟩ := advancePc_eq_setReg u
    exact ⟨v, hv, hadv ▸ step_of_observe h, hrun⟩
  · obtain ⟨hr, ⟨-, rfl⟩ | ⟨hp, u, hu, -, rfl⟩⟩ := step_cases h
    · cases ht
    · rw [afterHandler_run] at ht
      exact ⟨u, observe_eq_some_iff.mpr ⟨⟨hr, hp, rfl⟩, hu, ht⟩⟩

/-! ### A faulting step -/

/-- A step that ends in FATAL took the fault of the step: with none it would have ended HALTED or RUNNING. -/
theorem stepFault_of_step_fatal {s t : State} (h : step s = .next t) (ht : t.run = .fatal) :
    ∃ f, stepFault s = some f ∧ t = s.raise f := by
  obtain ⟨hr, -⟩ := step_cases h
  obtain ⟨hfault, hhalt, hdone⟩ := stepEndsAsTheRunStateTableSays s hr
  cases hf : stepFault s with
  | some f =>
    rw [hfault f hf] at h; cases h
    exact ⟨f, rfl, rfl⟩
  | none =>
    cases hu : (decode (wordsAt s)).isUnmapped with
    | true => rw [hhalt hf hu] at h; cases h; cases ht
    | false =>
      obtain ⟨t', hstep, hrun, -⟩ := hdone hf hu
      rw [hstep] at h; cases h
      rw [hrun] at ht; cases ht

/-- Settles O30: the state after the step is the fault taken from the state before it. -/
theorem faultsArePrecise : Obligations.FaultsArePrecise := by
  intro s t h ht
  have hseen := observe_eq_none_of_step h (by simp [ht])
  obtain ⟨f, hf, rfl⟩ := stepFault_of_step_fatal h ht
  exact ⟨⟨f, hf, rfl⟩, fun _ => rfl, fun _ => rfl, hseen⟩

end Sys2Proof.Machine
